-- ==== Sys2Proof/Word.lean ====
section
/-! DEFINITION. The word types of the core (spec/00_scope.md R7, R9): every value is unsigned bits of a
fixed width, so each width has a name and nothing else stands here. -/

namespace Sys2Proof

/-- A register, a memory cell, a timer: 8 bits (R7 `REG_W`, `TIMER_W`). -/
abbrev Byte := BitVec 8

/-- An instruction word, the pc, I, a stack entry: 16 bits (R7 `PC_W`, `I_W`, `STACK_W`, `INSN_W`). -/
abbrev Word := BitVec 16

/-- A 4-bit field aligned on a multiple of 4 (R9, R11). -/
abbrev Nibble := BitVec 4

/-- A general register number, 0x0 to 0xF (R12). -/
abbrev RegIdx := BitVec 4

/-- The 12-bit address immediate NNN (R47). -/
abbrev Addr12 := BitVec 12

end Sys2Proof
end

