-- ==== Sys2Proof/Syntax.lean ====
section
/-! DEFINITION. The decoder's output (spec/30_encoding.md R49, R55): one constructor per operation kind, carrying its
pre-extracted operands. One constructor per row of spec/opcode_table.json, in the table's order. -/

namespace Sys2Proof

/-- The operation descriptor `Op` of R55: 35 kinds and BAD. -/
inductive Instr where
  /-- 0NNN: SYS nnn, a no-op (R62). -/
  | sys (nnn : Addr12)
  /-- 00E0: CLS (R97). -/
  | cls
  /-- 00EE: RET (R63). -/
  | ret
  /-- 1NNN: JP nnn (R64). -/
  | jp (nnn : Addr12)
  /-- 2NNN: CALL nnn (R65). -/
  | call (nnn : Addr12)
  /-- 3XNN: SE Vx, nn (R66). -/
  | seImm (x : RegIdx) (nn : Byte)
  /-- 4XNN: SNE Vx, nn (R67). -/
  | sneImm (x : RegIdx) (nn : Byte)
  /-- 5XY0: SE Vx, Vy (R68). -/
  | seReg (x y : RegIdx)
  /-- 6XNN: LD Vx, nn (R75). -/
  | ldImm (x : RegIdx) (nn : Byte)
  /-- 7XNN: ADD Vx, nn (R76). -/
  | addImm (x : RegIdx) (nn : Byte)
  /-- 8XY0: LD Vx, Vy (R77). -/
  | ldReg (x y : RegIdx)
  /-- 8XY1: OR Vx, Vy (R78). -/
  | orReg (x y : RegIdx)
  /-- 8XY2: AND Vx, Vy (R79). -/
  | andReg (x y : RegIdx)
  /-- 8XY3: XOR Vx, Vy (R80). -/
  | xorReg (x y : RegIdx)
  /-- 8XY4: ADD Vx, Vy (R81). -/
  | addReg (x y : RegIdx)
  /-- 8XY5: SUB Vx, Vy (R82). -/
  | sub (x y : RegIdx)
  /-- 8XY6: SHR Vx, Vy (R84). -/
  | shr (x y : RegIdx)
  /-- 8XY7: SUBN Vx, Vy (R83). -/
  | subn (x y : RegIdx)
  /-- 8XYE: SHL Vx, Vy (R85). -/
  | shl (x y : RegIdx)
  /-- 9XY0: SNE Vx, Vy (R69). -/
  | sneReg (x y : RegIdx)
  /-- ANNN: LD I, nnn (R88). -/
  | ldI (nnn : Addr12)
  /-- BNNN / BXNN: JP V0, nnn (R70); X is the top nibble of NNN. -/
  | jpOff (x : RegIdx) (nnn : Addr12)
  /-- CXNN: RND Vx, nn (R99). -/
  | rnd (x : RegIdx) (nn : Byte)
  /-- DXYN: DRW Vx, Vy, n (R98). -/
  | drw (x y : RegIdx) (n : Nibble)
  /-- EX9E: SKP Vx (R100). -/
  | skp (x : RegIdx)
  /-- EXA1: SKNP Vx (R101). -/
  | sknp (x : RegIdx)
  /-- FX07: LD Vx, DT (R94). -/
  | ldVxDt (x : RegIdx)
  /-- FX0A: LD Vx, K (R102). -/
  | ldK (x : RegIdx)
  /-- FX15: LD DT, Vx (R95). -/
  | ldDt (x : RegIdx)
  /-- FX18: LD ST, Vx (R96). -/
  | ldSt (x : RegIdx)
  /-- FX1E: ADD I, Vx (R89). -/
  | addI (x : RegIdx)
  /-- FX29: LD F, Vx (R90). -/
  | ldF (x : RegIdx)
  /-- FX33: LD B, Vx (R91). -/
  | ldB (x : RegIdx)
  /-- FX55: LD [I], Vx (R92). -/
  | stRegs (x : RegIdx)
  /-- FX65: LD Vx, [I] (R93). -/
  | ldRegs (x : RegIdx)
  /-- Any word no other row matches: BAD (R53). -/
  | bad (w : Word)
deriving DecidableEq, Repr

end Sys2Proof
end

