-- ==== Sys2Proof/Decode.lean ====
section
/-! DEFINITION. The decoder (spec/30_encoding.md R46 to R54) and, after it, the encoder written from the same patterns
(R49). The decoder is a pure function of the word, with no state and no dependence on `Q` (R50, R51). -/

namespace Sys2Proof

/-- op = w[15:12] (R47). -/
def opField (w : Word) : Nibble := w.extractLsb' 12 4
/-- X = w[11:8] (R47). -/
def xField (w : Word) : RegIdx := w.extractLsb' 8 4
/-- Y = w[7:4] (R47). -/
def yField (w : Word) : RegIdx := w.extractLsb' 4 4
/-- N = w[3:0] (R47). -/
def nField (w : Word) : Nibble := w.extractLsb' 0 4
/-- NN = w[7:0] (R47). -/
def nnField (w : Word) : Byte := w.extractLsb' 0 8
/-- NNN = w[11:0] (R47). -/
def nnnField (w : Word) : Addr12 := w.extractLsb' 0 12

/-- Family 8 by its trailing nibble (R50). -/
def decodeFamily8 (w : Word) : Instr :=
  match nField w with
  | 0x0#4 => .ldReg (xField w) (yField w)
  | 0x1#4 => .orReg (xField w) (yField w)
  | 0x2#4 => .andReg (xField w) (yField w)
  | 0x3#4 => .xorReg (xField w) (yField w)
  | 0x4#4 => .addReg (xField w) (yField w)
  | 0x5#4 => .sub (xField w) (yField w)
  | 0x6#4 => .shr (xField w) (yField w)
  | 0x7#4 => .subn (xField w) (yField w)
  | 0xE#4 => .shl (xField w) (yField w)
  | _ => .bad w

/-- Family E by its trailing byte (R50). -/
def decodeFamilyE (w : Word) : Instr :=
  match nnField w with
  | 0x9E#8 => .skp (xField w)
  | 0xA1#8 => .sknp (xField w)
  | _ => .bad w

/-- Family F by its trailing byte (R50). -/
def decodeFamilyF (w : Word) : Instr :=
  match nnField w with
  | 0x07#8 => .ldVxDt (xField w)
  | 0x0A#8 => .ldK (xField w)
  | 0x15#8 => .ldDt (xField w)
  | 0x18#8 => .ldSt (xField w)
  | 0x1E#8 => .addI (xField w)
  | 0x29#8 => .ldF (xField w)
  | 0x33#8 => .ldB (xField w)
  | 0x55#8 => .stRegs (xField w)
  | 0x65#8 => .ldRegs (xField w)
  | _ => .bad w

/-- `Decode(w)` of R50: total, and the exact words 00E0 and 00EE come before the 0NNN catch-all. -/
def decode (w : Word) : Instr :=
  match opField w with
  | 0x0#4 => if w = 0x00E0#16 then .cls else if w = 0x00EE#16 then .ret else .sys (nnnField w)
  | 0x1#4 => .jp (nnnField w)
  | 0x2#4 => .call (nnnField w)
  | 0x3#4 => .seImm (xField w) (nnField w)
  | 0x4#4 => .sneImm (xField w) (nnField w)
  | 0x5#4 => if nField w = 0x0#4 then .seReg (xField w) (yField w) else .bad w
  | 0x6#4 => .ldImm (xField w) (nnField w)
  | 0x7#4 => .addImm (xField w) (nnField w)
  | 0x8#4 => decodeFamily8 w
  | 0x9#4 => if nField w = 0x0#4 then .sneReg (xField w) (yField w) else .bad w
  | 0xA#4 => .ldI (nnnField w)
  | 0xB#4 => .jpOff (xField w) (nnnField w)
  | 0xC#4 => .rnd (xField w) (nnField w)
  | 0xD#4 => .drw (xField w) (yField w) (nField w)
  | 0xE#4 => decodeFamilyE w
  -- 0xF is the one value left
  | _ => decodeFamilyF w

/-- `a ++ b`, the high byte first (R9, R35, R36). -/
def wordOfBytes (hi lo : Byte) : Word := hi ++ lo

/-- The two bytes of a word as memory holds them, the high byte at the lower address (R35, R36). -/
def bytesOfWord (w : Word) : List Byte := [w.extractLsb' 8 8, w.extractLsb' 0 8]

/-- Why a list of bytes holds no instruction. -/
inductive DecodeError where
  /-- No byte at all (log 22; safe: nothing is decoded). -/
  | noBytes
  /-- One byte, and an instruction is two (R46; log 22; safe: nothing is decoded). -/
  | oneByte
deriving DecidableEq, Repr

/-- The instruction at the head of a list of bytes, and the rest of the list: every instruction is two bytes, high
byte first (R35, R46). -/
def decodeBytes : List Byte → Except DecodeError (Instr × List Byte)
  | [] => .error .noBytes
  | [_] => .error .oneByte
  | hi :: lo :: rest => .ok (decode (wordOfBytes hi lo), rest)

/-- What the decoder reads from an instruction whose bits are `w`, numbered as spec/opcode_table.json numbers them; bits
above `nbits` are 0. -/
def decodeTableWord (nbits w : Nat) : Option Instr :=
  match decodeBytes (bytesOfWord (BitVec.ofNat 16 (w % 2 ^ nbits))) with
  | .ok (i, _) => some i
  | .error _ => none

/-- The word with the four nibbles op, X, Y, N (R47). -/
def wordXYN (op : Nibble) (x y : RegIdx) (n : Nibble) : Word := op ++ x ++ y ++ n
/-- The word with op, X and the trailing byte NN (R47). -/
def wordXNN (op : Nibble) (x : RegIdx) (nn : Byte) : Word := op ++ x ++ nn
/-- The word with op and the 12-bit field NNN (R47). -/
def wordNNN (op : Nibble) (nnn : Addr12) : Word := op ++ nnn

/-- The word of a well-formed descriptor, from the patterns of R49. -/
def encode : Instr → Word
  | .sys nnn => wordNNN 0x0 nnn
  | .cls => 0x00E0
  | .ret => 0x00EE
  | .jp nnn => wordNNN 0x1 nnn
  | .call nnn => wordNNN 0x2 nnn
  | .seImm x nn => wordXNN 0x3 x nn
  | .sneImm x nn => wordXNN 0x4 x nn
  | .seReg x y => wordXYN 0x5 x y 0x0
  | .ldImm x nn => wordXNN 0x6 x nn
  | .addImm x nn => wordXNN 0x7 x nn
  | .ldReg x y => wordXYN 0x8 x y 0x0
  | .orReg x y => wordXYN 0x8 x y 0x1
  | .andReg x y => wordXYN 0x8 x y 0x2
  | .xorReg x y => wordXYN 0x8 x y 0x3
  | .addReg x y => wordXYN 0x8 x y 0x4
  | .sub x y => wordXYN 0x8 x y 0x5
  | .shr x y => wordXYN 0x8 x y 0x6
  | .subn x y => wordXYN 0x8 x y 0x7
  | .shl x y => wordXYN 0x8 x y 0xE
  | .sneReg x y => wordXYN 0x9 x y 0x0
  | .ldI nnn => wordNNN 0xA nnn
  | .jpOff _ nnn => wordNNN 0xB nnn
  | .rnd x nn => wordXNN 0xC x nn
  | .drw x y n => wordXYN 0xD x y n
  | .skp x => wordXNN 0xE x 0x9E
  | .sknp x => wordXNN 0xE x 0xA1
  | .ldVxDt x => wordXNN 0xF x 0x07
  | .ldK x => wordXNN 0xF x 0x0A
  | .ldDt x => wordXNN 0xF x 0x15
  | .ldSt x => wordXNN 0xF x 0x18
  | .addI x => wordXNN 0xF x 0x1E
  | .ldF x => wordXNN 0xF x 0x29
  | .ldB x => wordXNN 0xF x 0x33
  | .stRegs x => wordXNN 0xF x 0x55
  | .ldRegs x => wordXNN 0xF x 0x65
  | .bad w => w

end Sys2Proof
end

