-- ==== Sys2Proof/Config.lean ====
section
/-! DEFINITION. What is fixed for one machine (spec/00_scope.md R7, R8; spec/10_state.md R24, R25) and the free
values (R99). A `Config` is an argument of the machine: no meaning fixes one of its values. -/

namespace Sys2Proof

/-- The quirk configuration `Q`, six toggles fixed when the VM is constructed (R24). Every one of the 64
combinations is legal. -/
structure Quirks where
  /-- 8XY1, 8XY2, 8XY3 force VF to 0 afterwards. -/
  vfReset : Bool
  /-- FX55 and FX65 advance I by X + 1 afterwards. -/
  memory : Bool
  /-- "currently advisory": no rule reads it (R24, 92 D17). -/
  displayWait : Bool
  /-- DXYN drops off-screen pixels; when false it wraps them. -/
  clipping : Bool
  /-- 8XY6 and 8XYE shift VX in place; when false VX is first loaded from VY. -/
  shifting : Bool
  /-- BXNN jumps to XNN + VX; when false BNNN jumps to NNN + V0. -/
  jumping : Bool
deriving DecidableEq, Repr

/-- The packed configuration word, bits 0 to 5 in the order R24 lists the fields (92 D3). -/
def Quirks.toBits (q : Quirks) : BitVec 6 :=
  BitVec.ofBool q.jumping ++ BitVec.ofBool q.shifting ++ BitVec.ofBool q.clipping ++
    BitVec.ofBool q.displayWait ++ BitVec.ofBool q.memory ++ BitVec.ofBool q.vfReset

/-- The configuration a packed word stands for (R24): every word is legal. -/
def Quirks.ofBits (b : BitVec 6) : Quirks :=
  { vfReset := b.getLsbD 0, memory := b.getLsbD 1, displayWait := b.getLsbD 2,
    clipping := b.getLsbD 3, shifting := b.getLsbD 4, jumping := b.getLsbD 5 }

/-- The preset `chip8` of R25 (PRESUMED, log 3: the spec takes the values from general knowledge). -/
def Quirks.chip8 : Quirks :=
  { vfReset := true, memory := true, displayWait := true, clipping := true, shifting := false, jumping := false }

/-- The preset `super_chip` of R25 (PRESUMED, log 3). -/
def Quirks.superChip : Quirks :=
  { vfReset := false, memory := false, displayWait := false, clipping := true, shifting := true, jumping := true }

/-- The preset `xo_chip` of R25 (PRESUMED, log 3). -/
def Quirks.xoChip : Quirks :=
  { vfReset := false, memory := true, displayWait := false, clipping := false, shifting := false, jumping := false }

/-- `FX29_POLICY` (R7, R90): what the sprite-address lookup does. -/
inductive Fx29Policy where
  /-- `Fault`, the default: FX29 raises `Unimplemented`. -/
  | fault
  /-- `Font(base)`: FX29 points I at a 5-byte glyph above `base`. -/
  | font (base : Word)
deriving DecidableEq, Repr

/-- The arguments of the machine that stay fixed after `create` (R8, R24, R116, R90). -/
structure Config where
  quirks : Quirks
  /-- `TIMER_PERIOD > 0`, in the unit of `elapsed` (R116, 92 D26); a Nat (log 4). -/
  timerPeriod : Nat
  fx29Policy : Fx29Policy
deriving DecidableEq, Repr

/-- FREE VALUE (R99, 92 D18; log 7): the byte the `n`-th draw samples from `rnd_in`. It has no body, so a
statement about it holds for every byte, under no law. -/
opaque Config.rndIn : Nat → Byte

/-- The standard 16-glyph font of spec/93_implementation_defined.md Part 2, glyph g at offset 5 * g: what a host
that chooses `Font(base)` puts into its image at `base` (R90, R124). The core never writes it. -/
def standardFont : List Byte :=
  [0xF0, 0x90, 0x90, 0x90, 0xF0] ++ [0x20, 0x60, 0x20, 0x20, 0x70] ++
  [0xF0, 0x10, 0xF0, 0x80, 0xF0] ++ [0xF0, 0x10, 0xF0, 0x10, 0xF0] ++
  [0x90, 0x90, 0xF0, 0x10, 0x10] ++ [0xF0, 0x80, 0xF0, 0x10, 0xF0] ++
  [0xF0, 0x80, 0xF0, 0x90, 0xF0] ++ [0xF0, 0x10, 0x20, 0x40, 0x40] ++
  [0xF0, 0x90, 0xF0, 0x90, 0xF0] ++ [0xF0, 0x90, 0xF0, 0x10, 0xF0] ++
  [0xF0, 0x90, 0xF0, 0x90, 0x90] ++ [0xE0, 0x90, 0xE0, 0x90, 0xE0] ++
  [0xF0, 0x80, 0x80, 0x80, 0xF0] ++ [0xE0, 0x90, 0x90, 0x90, 0xE0] ++
  [0xF0, 0x80, 0xF0, 0x80, 0xF0] ++ [0xF0, 0x80, 0xF0, 0x80, 0x80]

end Sys2Proof
end

