-- ==== Sys2Proof/Machine/State.lean ====
section
/-! DEFINITION. The architectural state (spec/10_state.md), the core's fault record (spec/60_exceptions.md R105), why a
step of the model could stop without a next state, and the state right after reset (R30, R122). -/

namespace Sys2Proof.Machine

/-- The kinds of fault the core raises, each with the info its record holds (R105). They are raised by
`State.raise`, which latches them: a step that raises one answers a NEXT state (R106; log 9). -/
inductive FaultKind where
  /-- Any BAD word; info: the word (R53). -/
  | badInstruction (w : Word)
  /-- 2NNN with sp = 16 (R65). -/
  | stackOverflow
  /-- 00EE with sp = 0 (R63). -/
  | stackUnderflow
  /-- A fetch or a data access above 0xFFF; info: the first failing address, an exact natural (R33, R34). -/
  | addressOverflow (a : Nat)
  /-- EX9E or EXA1 with VX > 0xF; info: VX (R100, R101). -/
  | keyIndexOutOfRange (k : Byte)
  /-- FX29 under `FX29_POLICY = Fault`; info: the word (R90). -/
  | unimplemented (w : Word)
deriving DecidableEq, Repr

/-- One fault record `(kind, pc, info)` (R26, R105): the info is the kind's argument, the pc is the address of the
faulting instruction or of the failed fetch. -/
structure FaultRecord where
  kind : FaultKind
  pc : Word
deriving DecidableEq, Repr

/-- The screen buffer, `Screen[x][y]` with x the column in 0..63 and y the row in 0..31 (R20). -/
abbrev Screen := Vector (Vector Bool 32) 64

/-- Sixteen key levels, indexed by key number (R21, R22). -/
abbrev KeyLevels := Vector Bool 16

/-- The bytes that differ from `Memory.unlisted`, addresses strictly rising (R31; log 13). -/
abbrev Memory := List Host.Cell

/-- The whole state. The first sixteen fields are the spec's own (spec/10_state.md R12 to R26); `cfg` holds
the machine's fixed arguments (R8, R24, R27; log 1); `rndDraws` is the model's own (log 7). -/
structure State where
  /-- V0 to VF (R12); register 0xF is also the flag VF (R13). -/
  v : Vector Byte 16
  /-- The index register I (R15). -/
  iReg : Word
  /-- The program counter (R16). -/
  pc : Word
  /-- stack[0..15] (R17). -/
  stack : Vector Word 16
  /-- The number of live stack entries, 0 to 16 (R17). -/
  sp : Fin 17
  /-- The delay timer DT (R18). -/
  dt : Byte
  /-- The sound timer ST (R18). -/
  st : Byte
  /-- The divider's accumulator, in the unit of `TIMER_PERIOD` (R19). -/
  acc : Nat
  /-- The screen buffer (R20). -/
  screen : Screen
  /-- The key levels the host last wrote (R21). -/
  keys : KeyLevels
  /-- The key levels sampled at the last step that did not fault or halt (R22). -/
  keyPrev : KeyLevels
  /-- The key-wait latch (R23). -/
  waitKey : Bool
  /-- The register the key wait writes (R23). -/
  waitReg : RegIdx
  /-- The 4096 bytes of memory (R31). -/
  mem : Memory
  /-- The fault status: None or one record (R26). -/
  fault : Option FaultRecord
  /-- Q, TIMER_PERIOD and FX29_POLICY, fixed for the VM's lifetime (R24, R116, R90). -/
  cfg : Config
  /-- The model's own: how many random bytes CXNN has drawn (log 7). -/
  rndDraws : Nat
deriving DecidableEq, Repr

/-- Why a step could stop with no next state: NOTHING does. Every fault of the spec is latched in `State.fault` and
is a next state (R106; log 9), and a step of a faulted state answers that state again (R107; log 8), so this type
has no constructor and no meaning raises one; safe, since no behaviour is cut off. -/
inductive Fault : Type
deriving DecidableEq, Repr

/-- Why something is turned away with no next state. -/
inductive Refusal where
  /-- An instruction that has no meaning yet, by its name in spec/opcode_table.json. Raised by an arm of `exec` only, and
  no arm raises it now; safe (the model stops where the hardware goes on). -/
  | notModelled (mnemonic : String)
  /-- Raised by `create` alone: the image reaches past the end of memory, and no VM is constructed (R122, 92 D27);
  safe. -/
  | imageDoesNotFit
  /-- Raised by `create` alone: TIMER_PERIOD is 0, where R116 asks for a positive one; no VM is constructed (log 23);
  safe. -/
  | zeroTimerPeriod
deriving DecidableEq, Repr

/-- What executing something answers. -/
abbrev Result := Host.Outcome State Fault Refusal

/-- Sixteen registers of 0 (R30). -/
def zeroRegs : Vector Byte 16 := Vector.replicate 16 0
/-- Sixteen stack entries of 0 (R30). -/
def zeroStack : Vector Word 16 := Vector.replicate 16 0
/-- Every pixel false (R30). -/
def blankScreen : Screen := Vector.replicate 64 (Vector.replicate 32 false)
/-- Every key released (R30). -/
def noKeys : KeyLevels := Vector.replicate 16 false

/-- The default arguments of `State.reset`: `chip8` quirks (PRESUMED, log 3), a period of 1000000 units
(DESIGN CHOICE, log 4), FX29_POLICY = Fault, the spec's default (R7, R90; log 5). -/
def resetConfig : Config :=
  { quirks := Quirks.chip8, timerPeriod := 1000000, fx29Policy := .fault }

/-- The state right after `create` with the empty image at the historical defaults (R30, R40, R122; log 2):
offset and start 0x200, memory zero-filled, everything else zero, false or empty. -/
def State.reset : State :=
  { v := zeroRegs, iReg := 0, pc := 0x200, stack := zeroStack, sp := 0, dt := 0, st := 0, acc := 0,
    screen := blankScreen, keys := noKeys, keyPrev := noKeys, waitKey := false, waitReg := 0, mem := [],
    fault := none, cfg := resetConfig, rndDraws := 0 }

end Sys2Proof.Machine
end

