-- ==== Sys2Proof/Machine/Ops.lean ====
section
/-! DEFINITION. The named operations over registers, memory, pc, call stack, faults, keys, timers and reset
(spec/10_state.md, spec/20_memory.md, spec/60_exceptions.md, spec/70_reset_and_hazards.md). The faults of the core are raised by ONE operation, `State.raise`;
the core has no return from a fault (R112), so none stands beside it. -/

namespace Sys2Proof.Machine

/-! ## Memory as data -/

/-- What an address with no entry reads as: memory is "Created zero-filled" (R30, R122; log 13). -/
abbrev Memory.unlisted : Byte := 0

/-- The byte at an address. -/
def Memory.read : Memory → Nat → Byte
  | [], _ => Memory.unlisted
  | (k, b) :: rest, a => if k = a then b else Memory.read rest a

/-- Memory without an entry for an address. -/
def Memory.erase (m : Memory) (a : Nat) : Memory := m.filter fun c => c.1 != a

/-- An entry put before the first entry of a higher address. -/
def Memory.insert : Memory → Nat → Byte → Memory
  | [], a, b => [(a, b)]
  | (k, c) :: rest, a, b => if a < k then (a, b) :: (k, c) :: rest else (k, c) :: Memory.insert rest a b

/-- Memory with one byte written, in the canonical form: a byte that an unlisted address would read as has no entry. -/
def Memory.write (m : Memory) (a : Nat) (b : Byte) : Memory :=
  if b = Memory.unlisted then m.erase a else (m.erase a).insert a b

/-- The canonical form from address `lo` up: addresses strictly rising, inside the 4096 bytes (R31), and no entry that
reads as an unlisted address. -/
def Memory.wfFrom : Nat → Memory → Bool
  | _, [] => true
  | lo, (k, b) :: rest => decide (lo ≤ k) && decide (k ≤ 0xFFF) && (b != Memory.unlisted) && Memory.wfFrom (k + 1) rest

/-- The canonical form of the whole memory. -/
def Memory.wf (m : Memory) : Bool := Memory.wfFrom 0 m

/-- The bytes stored one after another from an address up (the loader's "bulk write", R122). -/
def Memory.writeBytes : Memory → Nat → List Byte → Memory
  | m, _, [] => m
  | m, a, b :: bs => Memory.writeBytes (Memory.write m a b) (a + 1) bs

/-! ## Registers and pc -/

/-- V[x] (R10, R12). -/
def State.reg (s : State) (x : RegIdx) : Byte := s.v[x.toNat]'x.isLt

/-- `V[x] <- b` (R10, R12): no register is hard-wired or read-only. -/
def State.setReg (s : State) (x : RegIdx) (b : Byte) : State :=
  { s with v := s.v.set x.toNat b x.isLt }

/-- `pc <- pc + 2 (mod 2^16)` (R60). -/
def State.advance (s : State) : State := { s with pc := s.pc + 2 }

/-- A skip: `pc + 4` when the condition holds, else `pc + 2` (R60). -/
def State.skipIf (s : State) (c : Bool) : State := { s with pc := s.pc + (if c then 4 else 2) }

/-- A control transfer: the target is written unchecked, with no 2 added (R60, R61). -/
def State.jump (s : State) (target : Word) : State := { s with pc := target }

/-! ## Faults -/

/-- `raise F(info)` (R106, R111): the state as before the step, with the record `(kind, pc, info)` latched. `s` is the
state the step started from, so nothing of the faulting instruction is applied. -/
def State.raise (s : State) (k : FaultKind) : State := { s with fault := some { kind := k, pc := s.pc } }

/-- The numeric code of a fault kind (R105, 92 D22). -/
def FaultKind.code : FaultKind → Nat
  | .badInstruction _ => 1
  | .stackOverflow => 2
  | .stackUnderflow => 3
  | .addressOverflow _ => 4
  | .keyIndexOutOfRange _ => 5
  | .unimplemented _ => 6

/-- The info a record holds, as a number; `none` for the stack faults (R105). -/
def FaultKind.info : FaultKind → Option Nat
  | .badInstruction w => some w.toNat
  | .stackOverflow => none
  | .stackUnderflow => none
  | .addressOverflow a => some a
  | .keyIndexOutOfRange k => some k.toNat
  | .unimplemented w => some w.toNat

/-- The code the fault status shows, 0 for None (R105). -/
def State.faultCode (s : State) : Nat :=
  match s.fault with
  | none => 0
  | some r => r.kind.code

/-! ## Checked memory accesses -/

/-- `MemRead(a, 1)` (R33): the address is an exact natural. -/
def State.memRead (s : State) (a : Nat) : Except FaultKind Byte :=
  if 0xFFF < a then .error (.addressOverflow a) else .ok (s.mem.read a)

/-- `MemWrite(a, 1, b)` (R33). -/
def State.memWrite (s : State) (a : Nat) (b : Byte) : Except FaultKind State :=
  if 0xFFF < a then .error (.addressOverflow a) else .ok { s with mem := s.mem.write a b }

/-- `n` bytes from `a` up, one `MemRead` each in ascending order (R36, R38). A failing access answers the first failing
address in access order (R34). -/
def State.loadBytes (s : State) : Nat → Nat → Except FaultKind (List Byte)
  | _, 0 => .ok []
  | a, n + 1 =>
    match s.memRead a with
    | .error k => .error k
    | .ok b =>
      match s.loadBytes (a + 1) n with
      | .error k => .error k
      | .ok bs => .ok (b :: bs)

/-- Bytes stored from `a` up, one `MemWrite` each in ascending order (R36, R38). A failing access answers the first failing
address and NO state, so none of the earlier bytes is stored: that is R34's check before any write. -/
def State.storeBytes : State → Nat → List Byte → Except FaultKind State
  | s, _, [] => .ok s
  | s, a, b :: bs =>
    match s.memWrite a b with
    | .error k => .error k
    | .ok t => State.storeBytes t (a + 1) bs

/-- `Fetch()` (R35): the two bytes at pc and pc + 1, high byte first; `pc + 1` is an exact natural. -/
def State.fetch (s : State) : Except FaultKind Word :=
  match s.memRead s.pc.toNat with
  | .error k => .error k
  | .ok hi =>
    match s.memRead (s.pc.toNat + 1) with
    | .error k => .error k
    | .ok lo => .ok (wordOfBytes hi lo)

/-! ## The call stack -/

/-- `Push(v)` (R17). -/
def State.push (s : State) (w : Word) : Except FaultKind State :=
  if h : s.sp.val < 16 then
    .ok { s with stack := s.stack.set s.sp.val w h, sp := ⟨s.sp.val + 1, Nat.succ_lt_succ h⟩ }
  else .error .stackOverflow

/-- `Pop()` (R17): the popped word and the state without it; the dead entry keeps its content (92 D15; log 19). -/
def State.pop (s : State) : Except FaultKind (Word × State) :=
  match s.sp with
  | ⟨0, _⟩ => .error .stackUnderflow
  | ⟨n + 1, h⟩ =>
    .ok (s.stack[n]'(Nat.lt_of_succ_lt_succ h), { s with sp := ⟨n, Nat.lt_of_succ_lt h⟩ })

/-! ## Keys -/

/-- The keys with a fresh press, pressed now and released at the last sample, in rising order (R103). -/
def State.freshKeys (s : State) : List (Fin 16) :=
  (List.finRange 16).filter fun k => s.keys[k] && !s.keyPrev[k]

/-- `key_prev <- Keys` (R22, R104). -/
def State.sampleKeys (s : State) : State := { s with keyPrev := s.keys }

/-- `KeyWaitPoll()` (R103): the lowest fresh key resolves the wait; the poll retires nothing and leaves pc alone. -/
def State.keyWaitPoll (s : State) : State :=
  match s.freshKeys.head? with
  | some k => { s.sampleKeys.setReg s.waitReg (BitVec.ofNat 8 k.val) with waitKey := false }
  | none => s.sampleKeys

/-- The host event `set_keys(k)` (R21, R28). -/
def State.setKeys (s : State) (k : KeyLevels) : State := { s with keys := k }

/-! ## Timers -/

/-- One timer's countdown, saturating towards zero (R18, R115). -/
def countDown (t : Byte) : Byte := if t = 0 then 0 else t - 1

/-- `Tick()` (R115). -/
def State.tick (s : State) : State := { s with dt := countDown s.dt, st := countDown s.st }

/-- The host event `timer_poll(elapsed)` (R114): at most one tick, the excess carried forward. It acts whatever the fault
and wait state are. -/
def State.timerPoll (s : State) (elapsed : Nat) : State :=
  if s.cfg.timerPeriod ≤ s.acc + elapsed then
    State.tick { s with acc := s.acc + elapsed - s.cfg.timerPeriod }
  else { s with acc := s.acc + elapsed }

/-! ## The step's parts around an instruction -/

/-- What a step adds after its instruction (R104): a step that did not fault samples the keys, a faulting one does not
(R22, R106). A step starts an instruction only with no fault latched, so a latched one was raised by it. -/
def retire (r : Result) : Result :=
  match r with
  | .next t => .next (if t.fault = none then t.sampleKeys else t)
  | .fault f => .fault f
  | .refused f => .refused f

/-! ## Reset -/

/-- `create(image, offset, start, Q)` with the machine's other arguments (R8, R122): refused when the image does not fit
or the period is not positive; else the zero-filled memory with the image, pc at `start` unchecked, and everything
else at its value in R30. -/
def create (image : List Byte) (offset start : Word) (cfg : Config) : Result :=
  if 4096 < offset.toNat + image.length then .refused .imageDoesNotFit
  else if cfg.timerPeriod = 0 then .refused .zeroTimerPeriod
  else
    .next
      { v := zeroRegs, iReg := 0, pc := start, stack := zeroStack, sp := 0, dt := 0, st := 0, acc := 0,
        screen := blankScreen, keys := noKeys, keyPrev := noKeys, waitKey := false, waitReg := 0,
        mem := Memory.writeBytes [] offset.toNat image, fault := none, cfg := cfg, rndDraws := 0 }

/-! ## Placing one instruction for the next step -/

/-- The state made ready to fetch at pc, with the bytes stored there (log 17): no fault latched and no key wait,
since either stops the fetch (R104); bytes past the end of memory are not stored. -/
def State.placeAtPc (s : State) (bytes : List Byte) : State :=
  { s with
    fault := none, waitKey := false
    mem := if s.pc.toNat + bytes.length ≤ 4096 then s.mem.writeBytes s.pc.toNat bytes else s.mem }

end Sys2Proof.Machine
end

