-- ==== Sys2Proof/Machine/Operands.lean ====
section
/-! DEFINITION. Every operand form of the instruction set (spec/30_encoding.md R47, R48; spec/42_index_memory.md R87): registers X and Y, the
immediates NN and NNN, the shift source, the jump offset, the byte ranges at I, the register range V0..VX. -/

namespace Sys2Proof.Machine

/-- `zext_16(NNN)` (R48). -/
def addrOperand (nnn : Addr12) : Word := nnn.setWidth 16

/-- `zext_16(v)` of a register's byte (R9, R70, R89). -/
def byteOperand (b : Byte) : Word := b.setWidth 16

/-- The value a shift starts from: VX when `shifting`, else VY (R84, R85). -/
def State.shiftSource (s : State) (x y : RegIdx) : Byte :=
  if s.cfg.quirks.shifting then s.reg x else s.reg y

/-- The target of the jump with offset: NNN + V0, or XNN + VX when `jumping` (R70). -/
def State.offsetTarget (s : State) (x : RegIdx) (nnn : Addr12) : Word :=
  addrOperand nnn + byteOperand (if s.cfg.quirks.jumping then s.reg x else s.reg 0)

/-- How many registers V0..VX holds: X + 1 (R38, R92). -/
def rangeCount (x : RegIdx) : Nat := x.toNat + 1

/-- V0..VX in ascending order (R36, R92). -/
def State.regRange (s : State) (x : RegIdx) : List Byte := s.v.toList.take (rangeCount x)

/-- `V[k], V[k+1], ... <-` the bytes in order (R93). -/
def State.setRegsFrom : State → Nat → List Byte → State
  | s, _, [] => s
  | s, k, b :: bs => State.setRegsFrom (s.setReg (BitVec.ofNat 4 k) b) (k + 1) bs

/-- The `memory` quirk's only post-modification of I: `I <- I + X + 1 (mod 2^16)` (R87, R92, R93). -/
def State.bumpI (s : State) (x : RegIdx) : State :=
  if s.cfg.quirks.memory then { s with iReg := s.iReg + BitVec.ofNat 16 (rangeCount x) } else s

/-- The three decimal digits of a byte, hundreds first (R36, R91). -/
def bcdDigits (b : Byte) : List Byte := [b / 100, b / 10 % 10, b % 10]

/-- The address of a glyph under `Font(base)`: `base + 5 * (a & 0xF)`, modulo 2^16 (R90). -/
def glyphAddress (base : Word) (a : Byte) : Word := base + 5 * byteOperand (a &&& 0x0F)

/-- The word of FX29, which its fault records: `0xF029 | X << 8` (R90). -/
def fx29Word (x : RegIdx) : Word := 0xF029#16 ||| (x.setWidth 16 <<< 8)

end Sys2Proof.Machine
end

