-- ==== Sys2Proof/Machine/Flags.lean ====
section
/-! DEFINITION. The ALU (spec/41_alu.md R72), every flag computation the spec gives, and the order in which a result and its flag
are written (R14, R74). -/

namespace Sys2Proof.Machine

/-- The ALU's operations (R72). -/
inductive AluOp where
  | add | sub | subn | or | and | xor | shr | shl | pass
deriving DecidableEq, Repr

/-- The result `r` of `ALU(op, a, b)`, modulo 256 (R72). -/
def aluResult (op : AluOp) (a b : Byte) : Byte :=
  match op with
  | .add => a + b
  | .sub => a - b
  | .subn => b - a
  | .or => a ||| b
  | .and => a &&& b
  | .xor => a ^^^ b
  | .shr => a >>> 1
  | .shl => a <<< 1
  | .pass => b

/-- The flag `cf` of `ALU(op, a, b)` (R72), on exact naturals. PASS leaves it unused; false there is read by nothing
(log 14). -/
def aluFlag (op : AluOp) (a b : Byte) : Bool :=
  match op with
  | .add => decide (255 < a.toNat + b.toNat)
  | .sub => decide (b.toNat ≤ a.toNat)
  | .subn => decide (a.toNat ≤ b.toNat)
  | .or => false
  | .and => false
  | .xor => false
  | .shr => a.getLsbD 0
  | .shl => a.getLsbD 7
  | .pass => false

/-- `zext_8(cf)` (R14). -/
def flagByte (cf : Bool) : Byte := if cf then 1 else 0

/-- `V[0xF] <- zext_8(cf)`, the last micro-step (R13, R14). -/
def State.setFlag (s : State) (cf : Bool) : State := s.setReg 0xF (flagByte cf)

/-- The write-back of R74: the result into VX, then the flag into VF. The flag was computed from values read before. -/
def State.writeBack (s : State) (x : RegIdx) (r : Byte) (cf : Bool) : State := (s.setReg x r).setFlag cf

/-- An ALU operation with its flag: result first, flag last (R74, R81 to R85). -/
def State.aluWithFlag (s : State) (op : AluOp) (x : RegIdx) (a b : Byte) : State :=
  s.writeBack x (aluResult op a b) (aluFlag op a b)

/-- A bitwise operation of VX and VY: VF is forced to the flag 0 afterwards when `vf_reset`, else untouched (R78, R79,
R80). -/
def State.bitwise (s : State) (op : AluOp) (x y : RegIdx) : State :=
  let t := s.setReg x (aluResult op (s.reg x) (s.reg y))
  if s.cfg.quirks.vfReset then t.setFlag (aluFlag op (s.reg x) (s.reg y)) else t

/-- An ALU result with no flag (R76, R77). -/
def State.aluNoFlag (s : State) (op : AluOp) (x : RegIdx) (a b : Byte) : State := s.setReg x (aluResult op a b)

end Sys2Proof.Machine
end

