-- ==== Sys2Proof/Machine/ControlFlow.lean ====
section
/-! DEFINITION. Control flow (spec/40_control_flow.md): SYS, RET, JP, CALL, the skips, the jump with offset. -/

namespace Sys2Proof.Machine

/-- SYS nnn (R62): only the pc advances. -/
def execSys (_nnn : Addr12) (s : State) : Result := .next s.advance

/-- RET (R63): `pc <- Pop()`, the popped value as it is. -/
def execRet (s : State) : Result :=
  match s.pop with
  | .error k => .next (s.raise k)
  | .ok (w, t) => .next (t.jump w)

/-- JP nnn (R64). -/
def execJp (nnn : Addr12) (s : State) : Result := .next (s.jump (addrOperand nnn))

/-- CALL nnn (R65): `Push(pc + 2); pc <- zext_16(NNN)`. -/
def execCall (nnn : Addr12) (s : State) : Result :=
  match s.push (s.pc + 2) with
  | .error k => .next (s.raise k)
  | .ok t => .next (t.jump (addrOperand nnn))

/-- SE Vx, nn (R66). -/
def execSeImm (x : RegIdx) (nn : Byte) (s : State) : Result := .next (s.skipIf (decide (s.reg x = nn)))

/-- SNE Vx, nn (R67). -/
def execSneImm (x : RegIdx) (nn : Byte) (s : State) : Result := .next (s.skipIf (decide (s.reg x ≠ nn)))

/-- SE Vx, Vy (R68). -/
def execSeReg (x y : RegIdx) (s : State) : Result := .next (s.skipIf (decide (s.reg x = s.reg y)))

/-- SNE Vx, Vy (R69). -/
def execSneReg (x y : RegIdx) (s : State) : Result := .next (s.skipIf (decide (s.reg x ≠ s.reg y)))

/-- JP V0, nnn (R70): the quirk fork is here, not in the decoder (R51). -/
def execJpOff (x : RegIdx) (nnn : Addr12) (s : State) : Result := .next (s.jump (s.offsetTarget x nnn))

end Sys2Proof.Machine
end

