-- ==== Sys2Proof/Machine/Illegal.lean ====
section
/-! DEFINITION. The illegal words (spec/30_encoding.md R53): executing one raises BadInstruction. -/

namespace Sys2Proof.Machine

/-- BAD (R53, R104): `raise BadInstruction(w)`; nothing else changes. -/
def execBad (w : Word) (s : State) : Result := .next (s.raise (.badInstruction w))

end Sys2Proof.Machine
end

