-- ==== Sys2Proof/Machine/IndexMemory.lean ====
section
/-! DEFINITION. The index register and the memory transfers (spec/42_index_memory.md): ANNN, FX1E, FX29, FX33, FX55, FX65. A failing
address is found before anything is written (spec/20_memory.md R34). -/

namespace Sys2Proof.Machine

/-- LD I, nnn (R88). -/
def execLdI (nnn : Addr12) (s : State) : Result := .next { s with iReg := addrOperand nnn }.advance

/-- ADD I, Vx (R89): modulo 2^16, no flag, no fault. -/
def execAddI (x : RegIdx) (s : State) : Result :=
  .next { s with iReg := s.iReg + byteOperand (s.reg x) }.advance

/-- LD F, Vx (R90): what FX29_POLICY says. -/
def execLdF (x : RegIdx) (s : State) : Result :=
  match s.cfg.fx29Policy with
  | .fault => .next (s.raise (.unimplemented (fx29Word x)))
  | .font base => .next { s with iReg := glyphAddress base (s.reg x) }.advance

/-- LD B, Vx (R91): the three digits at I, I + 1, I + 2; I is unchanged. -/
def execLdB (x : RegIdx) (s : State) : Result :=
  match s.storeBytes s.iReg.toNat (bcdDigits (s.reg x)) with
  | .error k => .next (s.raise k)
  | .ok t => .next t.advance

/-- LD [I], Vx (R92): V0..VX at I..I+X. -/
def execStRegs (x : RegIdx) (s : State) : Result :=
  match s.storeBytes s.iReg.toNat (s.regRange x) with
  | .error k => .next (s.raise k)
  | .ok t => .next (t.bumpI x).advance

/-- LD Vx, [I] (R93): V0..VX from I..I+X. -/
def execLdRegs (x : RegIdx) (s : State) : Result :=
  match s.loadBytes s.iReg.toNat (rangeCount x) with
  | .error k => .next (s.raise k)
  | .ok bs => .next ((s.setRegsFrom 0 bs).bumpI x).advance

end Sys2Proof.Machine
end

