-- ==== Sys2Proof/Machine/RegisterAlu.lean ====
section
/-! DEFINITION. Register and ALU operations (spec/41_alu.md): 6XNN, 7XNN, 8XY0 to 8XY7, 8XYE. None raises a fault or touches
memory; each ends with `pc <- pc + 2`. -/

namespace Sys2Proof.Machine

/-- LD Vx, nn (R75). -/
def execLdImm (x : RegIdx) (nn : Byte) (s : State) : Result := .next (s.setReg x nn).advance

/-- ADD Vx, nn (R76): no flag, even past 255. -/
def execAddImm (x : RegIdx) (nn : Byte) (s : State) : Result := .next (s.aluNoFlag .add x (s.reg x) nn).advance

/-- LD Vx, Vy (R77), the ALU's PASS path. -/
def execLdReg (x y : RegIdx) (s : State) : Result := .next (s.aluNoFlag .pass x (s.reg x) (s.reg y)).advance

/-- OR Vx, Vy (R78). -/
def execOrReg (x y : RegIdx) (s : State) : Result := .next (s.bitwise .or x y).advance

/-- AND Vx, Vy (R79). -/
def execAndReg (x y : RegIdx) (s : State) : Result := .next (s.bitwise .and x y).advance

/-- XOR Vx, Vy (R80). -/
def execXorReg (x y : RegIdx) (s : State) : Result := .next (s.bitwise .xor x y).advance

/-- ADD Vx, Vy (R81). -/
def execAddReg (x y : RegIdx) (s : State) : Result := .next (s.aluWithFlag .add x (s.reg x) (s.reg y)).advance

/-- SUB Vx, Vy (R82). -/
def execSub (x y : RegIdx) (s : State) : Result := .next (s.aluWithFlag .sub x (s.reg x) (s.reg y)).advance

/-- SHR Vx, Vy (R84). -/
def execShr (x y : RegIdx) (s : State) : Result :=
  .next (s.aluWithFlag .shr x (s.shiftSource x y) (s.reg y)).advance

/-- SUBN Vx, Vy (R83). -/
def execSubn (x y : RegIdx) (s : State) : Result := .next (s.aluWithFlag .subn x (s.reg x) (s.reg y)).advance

/-- SHL Vx, Vy (R85). -/
def execShl (x y : RegIdx) (s : State) : Result :=
  .next (s.aluWithFlag .shl x (s.shiftSource x y) (s.reg y)).advance

end Sys2Proof.Machine
end

