-- ==== Sys2Proof/Machine/ScreenKeysRandom.lean ====
section
/-! DEFINITION. The screen, the keys and the random input (spec/44_display_keys_random.md): 00E0, DXYN, CXNN, EX9E, EXA1, FX0A. The key-wait poll
that follows FX0A is `State.keyWaitPoll` (R103), a step and no instruction. -/

namespace Sys2Proof.Machine

/-- The pixel at column x, row y (R20). -/
def Screen.pixel (scr : Screen) (x : Fin 64) (y : Fin 32) : Bool := scr[x][y]

/-- The screen with one pixel toggled, the XOR of a blit (R98). -/
def Screen.toggle (scr : Screen) (x : Fin 64) (y : Fin 32) : Screen :=
  scr.set x.val (scr[x].set y.val (!scr[x][y]))

/-- Where one sprite bit lands: with `clipping` an off-screen bit is dropped, without it both axes wrap (R98). -/
def placePixel (clipping : Bool) (px py : Nat) : Option (Fin 64 × Fin 32) :=
  if clipping then
    if h : px < 64 ∧ py < 32 then some (⟨px, h.1⟩, ⟨py, h.2⟩) else none
  else some (Fin.ofNat 64 px, Fin.ofNat 32 py)

/-- The columns c of a row byte whose bit is 1, bit 7 the leftmost (R98). -/
def litColumns (row : Byte) : List Nat := (List.range 8).filter fun c => row.getLsbD (7 - c)

/-- The pixels a sprite toggles, row by row and left to right, from the origin (x0, y0) (R98). -/
def spritePixels (clipping : Bool) (x0 : Nat) : Nat → List Byte → List (Fin 64 × Fin 32)
  | _, [] => []
  | y, row :: rows =>
    (litColumns row).filterMap (fun c => placePixel clipping (x0 + c) y) ++ spritePixels clipping x0 (y + 1) rows

/-- The XOR blit (R98): each pixel is tested for a set-to-unset transition, then toggled. -/
def blit : Screen → Bool → List (Fin 64 × Fin 32) → Screen × Bool
  | scr, collide, [] => (scr, collide)
  | scr, collide, p :: ps => blit (scr.toggle p.1 p.2) (collide || scr.pixel p.1 p.2) ps

/-- The pixels DXYN toggles for given row bytes: the origin is (VX mod 64, VY mod 32) (R98). -/
def State.drawnPixels (s : State) (x y : RegIdx) (rows : List Byte) : List (Fin 64 × Fin 32) :=
  spritePixels s.cfg.quirks.clipping ((s.reg x).toNat % 64) ((s.reg y).toNat % 32) rows

/-- CLS (R97): VF is not written. -/
def execCls (s : State) : Result := .next { s with screen := blankScreen }.advance

/-- DRW Vx, Vy, n (R98): the rows are read first; the collision is written to VF last. -/
def execDrw (x y : RegIdx) (n : Nibble) (s : State) : Result :=
  match s.loadBytes s.iReg.toNat n.toNat with
  | .error k => .next (s.raise k)
  | .ok rows =>
    let drawn := blit s.screen false (s.drawnPixels x y rows)
    .next (State.setFlag { s with screen := drawn.1 } drawn.2).advance

/-- `V[X] <- r & NN` for a drawn byte r (R99). -/
def State.randomInto (s : State) (x : RegIdx) (nn r : Byte) : State :=
  s.setReg x (aluResult .and r nn)

/-- RND Vx, nn (R99): one free draw of `rnd_in` per execution (log 7). -/
def execRnd (x : RegIdx) (nn : Byte) (s : State) : Result :=
  .next (State.randomInto { s with rndDraws := s.rndDraws + 1 } x nn (Config.rndIn s.rndDraws)).advance

/-- `Keys[k]` for k = VX, or the fault of a key index above 0xF (R100, R101). -/
def State.keyTest (s : State) (x : RegIdx) : Except FaultKind Bool :=
  if h : (s.reg x).toNat < 16 then .ok (s.keys[(s.reg x).toNat]'h)
  else .error (.keyIndexOutOfRange (s.reg x))

/-- SKP Vx (R100). -/
def execSkp (x : RegIdx) (s : State) : Result :=
  match s.keyTest x with
  | .error k => .next (s.raise k)
  | .ok pressed => .next (s.skipIf pressed)

/-- SKNP Vx (R101). -/
def execSknp (x : RegIdx) (s : State) : Result :=
  match s.keyTest x with
  | .error k => .next (s.raise k)
  | .ok pressed => .next (s.skipIf (!pressed))

/-- LD Vx, K (R102): the latch is set and the instruction retires at once; V[X] is not written by this step. -/
def execLdK (x : RegIdx) (s : State) : Result := .next { s with waitKey := true, waitReg := x }.advance

end Sys2Proof.Machine
end

