-- ==== Sys2Proof/Machine/Timers.lean ====
section
/-! DEFINITION. The timer register instructions (spec/43_timers.md). The countdown is the host event `State.timerPoll` (R114), no
instruction. -/

namespace Sys2Proof.Machine

/-- LD Vx, DT (R94). -/
def execLdVxDt (x : RegIdx) (s : State) : Result := .next (s.setReg x s.dt).advance

/-- LD DT, Vx (R95): the divider's accumulator is not reset. -/
def execLdDt (x : RegIdx) (s : State) : Result := .next { s with dt := s.reg x }.advance

/-- LD ST, Vx (R96). -/
def execLdSt (x : RegIdx) (s : State) : Result := .next { s with st := s.reg x }.advance

end Sys2Proof.Machine
end

