-- ==== Sys2Proof/Machine/Step.lean ====
section
/-! DEFINITION. `Step()` (spec/60_exceptions.md R104) over the operations of Machine/Ops.lean, and the placing of one instruction where the
next step fetches it. -/

namespace Sys2Proof.Machine

/-- One `step` request (R104): a faulted core is Halted and nothing changes (R107; log 8); a waiting core polls the keys and
fetches nothing (R103); else fetch, decode, execute, and sample the keys if it retired. -/
def step (s : State) : Host.Outcome State Fault Refusal :=
  if s.fault.isSome then .next s
  else if s.waitKey then .next s.keyWaitPoll
  else
    match s.fetch with
    | .error k => .next (s.raise k)
    | .ok w => retire (exec (decode w) s)

/-- `s` with the instruction whose bits are `w` stored at pc, high byte first, and nothing in the way of its fetch
(log 17); bits above `nbits` are 0. -/
def State.withFetchWord (s : State) (nbits w : Nat) : State :=
  s.placeAtPc (bytesOfWord (BitVec.ofNat 16 (w % 2 ^ nbits)))

end Sys2Proof.Machine
end

