-- ==== Sys2Proof/Machine/ControlWord.lean ====
section
/-! DEFINITION. The control word of each kind, as the decoder hands it to the datapath (spec/30_encoding.md R56): a table beside the
meanings, written from R56 alone. What an instruction may change is stated against it. -/

namespace Sys2Proof.Machine

/-- The column "reads" of R56. -/
inductive ReadPort where
  /-- Port A, V[X]. -/
  | a
  /-- Port B, V[Y]. -/
  | b
  /-- V0, the offset register when `jumping` is false. -/
  | v0
  /-- V0..VX. -/
  | range
  /-- The index register. -/
  | iReg
  | keys
  | dt
  | rndIn
deriving DecidableEq, Repr

/-- The column "ALU / unit" of R56, and the timers its last column names. -/
inductive DatapathUnit where
  | none | screenClear | compare | add | pass | or | and | xor | sub | shr | subn | shl | addressAdd
  | blit | keyTest | setWaitLatch | policy | bcd | loadDt | loadSt
deriving DecidableEq, Repr

/-- The column "VX<-" of R56: no register, V[X], or V0..VX. -/
inductive VxWrite where
  | none | vx | range
deriving DecidableEq, Repr

/-- The column "VF<-cf" of R56. -/
inductive VfWrite where
  | never | always | ifVfReset
deriving DecidableEq, Repr

/-- The column "I" of R56. -/
inductive IWrite where
  | never | always | ifMemory | policy
deriving DecidableEq, Repr

/-- The column "memory" of R56, with the number of bytes. -/
inductive MemUse where
  | none | read (n : Nat) | write (n : Nat)
deriving DecidableEq, Repr

/-- The column "stack" of R56. -/
inductive StackUse where
  | none | pop | push
deriving DecidableEq, Repr

/-- The column "pc" of R56. -/
inductive PcWrite where
  /-- `+2`. -/
  | plus2
  /-- `+4` if the condition holds, else `+2`. -/
  | skip
  /-- The popped word, NNN, or the offset target. -/
  | target
  /-- `+2 or fault`, by FX29_POLICY. -/
  | plus2OrFault
  | fault
deriving DecidableEq, Repr

/-- One row of R56. -/
structure ControlWord where
  reads : List ReadPort
  unit : DatapathUnit
  vx : VxWrite
  vf : VfWrite
  i : IWrite
  memory : MemUse
  stack : StackUse
  pc : PcWrite
deriving DecidableEq, Repr

/-- The row every entry of which is "-" but the default advance. -/
def idleWord : ControlWord :=
  { reads := [], unit := .none, vx := .none, vf := .never, i := .never, memory := .none, stack := .none, pc := .plus2 }

/-- An ALU row: both ports read, VX written. -/
def aluWord (u : DatapathUnit) (vf : VfWrite) : ControlWord :=
  { idleWord with reads := [.a, .b], unit := u, vx := .vx, vf := vf }

/-- The table of R56. -/
def Instr.controlWord : Instr → ControlWord
  | .sys _ => idleWord
  | .cls => { idleWord with unit := .screenClear }
  | .ret => { idleWord with stack := .pop, pc := .target }
  | .jp _ => { idleWord with pc := .target }
  | .call _ => { idleWord with stack := .push, pc := .target }
  | .seImm _ _ => { idleWord with reads := [.a], unit := .compare, pc := .skip }
  | .sneImm _ _ => { idleWord with reads := [.a], unit := .compare, pc := .skip }
  | .seReg _ _ => { idleWord with reads := [.a, .b], unit := .compare, pc := .skip }
  | .ldImm _ _ => { idleWord with vx := .vx }
  | .addImm _ _ => { idleWord with reads := [.a], unit := .add, vx := .vx }
  | .ldReg _ _ => { idleWord with reads := [.b], unit := .pass, vx := .vx }
  | .orReg _ _ => aluWord .or .ifVfReset
  | .andReg _ _ => aluWord .and .ifVfReset
  | .xorReg _ _ => aluWord .xor .ifVfReset
  | .addReg _ _ => aluWord .add .always
  | .sub _ _ => aluWord .sub .always
  | .shr _ _ => aluWord .shr .always
  | .subn _ _ => aluWord .subn .always
  | .shl _ _ => aluWord .shl .always
  | .sneReg _ _ => { idleWord with reads := [.a, .b], unit := .compare, pc := .skip }
  | .ldI _ => { idleWord with i := .always }
  | .jpOff _ _ => { idleWord with reads := [.v0, .a], unit := .addressAdd, pc := .target }
  | .rnd _ _ => { idleWord with reads := [.rndIn], unit := .and, vx := .vx }
  | .drw _ _ n => { idleWord with reads := [.a, .b, .iReg], unit := .blit, vf := .always, memory := .read n.toNat }
  | .skp _ => { idleWord with reads := [.a, .keys], unit := .keyTest, pc := .skip }
  | .sknp _ => { idleWord with reads := [.a, .keys], unit := .keyTest, pc := .skip }
  | .ldVxDt _ => { idleWord with reads := [.dt], vx := .vx }
  | .ldK _ => { idleWord with unit := .setWaitLatch }
  | .ldDt _ => { idleWord with reads := [.a], unit := .loadDt }
  | .ldSt _ => { idleWord with reads := [.a], unit := .loadSt }
  | .addI _ => { idleWord with reads := [.a, .iReg], unit := .addressAdd, i := .always }
  | .ldF _ => { idleWord with reads := [.a], unit := .policy, i := .policy, pc := .plus2OrFault }
  | .ldB _ => { idleWord with reads := [.a, .iReg], unit := .bcd, memory := .write 3 }
  | .stRegs x => { idleWord with reads := [.range, .iReg], i := .ifMemory, memory := .write (x.toNat + 1) }
  | .ldRegs x => { idleWord with reads := [.iReg], vx := .range, i := .ifMemory, memory := .read (x.toNat + 1) }
  | .bad _ => { idleWord with pc := .fault }

/-- The register number port A takes, the field X (R14, R47); 0 where the kind has none. -/
def Instr.xOperand : Instr → RegIdx
  | .sys _ => 0
  | .cls => 0
  | .ret => 0
  | .jp _ => 0
  | .call _ => 0
  | .seImm x _ => x
  | .sneImm x _ => x
  | .seReg x _ => x
  | .ldImm x _ => x
  | .addImm x _ => x
  | .ldReg x _ => x
  | .orReg x _ => x
  | .andReg x _ => x
  | .xorReg x _ => x
  | .addReg x _ => x
  | .sub x _ => x
  | .shr x _ => x
  | .subn x _ => x
  | .shl x _ => x
  | .sneReg x _ => x
  | .ldI _ => 0
  | .jpOff x _ => x
  | .rnd x _ => x
  | .drw x _ _ => x
  | .skp x => x
  | .sknp x => x
  | .ldVxDt x => x
  | .ldK x => x
  | .ldDt x => x
  | .ldSt x => x
  | .addI x => x
  | .ldF x => x
  | .ldB x => x
  | .stRegs x => x
  | .ldRegs x => x
  | .bad _ => 0

/-- The register number port B takes, the field Y (R14, R47); 0 where the kind has none. -/
def Instr.yOperand : Instr → RegIdx
  | .sys _ => 0
  | .cls => 0
  | .ret => 0
  | .jp _ => 0
  | .call _ => 0
  | .seImm _ _ => 0
  | .sneImm _ _ => 0
  | .seReg _ y => y
  | .ldImm _ _ => 0
  | .addImm _ _ => 0
  | .ldReg _ y => y
  | .orReg _ y => y
  | .andReg _ y => y
  | .xorReg _ y => y
  | .addReg _ y => y
  | .sub _ y => y
  | .shr _ y => y
  | .subn _ y => y
  | .shl _ y => y
  | .sneReg _ y => y
  | .ldI _ => 0
  | .jpOff _ _ => 0
  | .rnd _ _ => 0
  | .drw _ y _ => y
  | .skp _ => 0
  | .sknp _ => 0
  | .ldVxDt _ => 0
  | .ldK _ => 0
  | .ldDt _ => 0
  | .ldSt _ => 0
  | .addI _ => 0
  | .ldF _ => 0
  | .ldB _ => 0
  | .stRegs _ => 0
  | .ldRegs _ => 0
  | .bad _ => 0

/-- Whether the kind's control word reads V[r] (R56). -/
def Instr.readsReg (i : Instr) (r : RegIdx) : Bool :=
  (Instr.controlWord i).reads.any fun p =>
    match p with
    | .a => r == Instr.xOperand i
    | .b => r == Instr.yOperand i
    | .v0 => r == 0
    | .range => decide (r.toNat ≤ (Instr.xOperand i).toNat)
    | .iReg => false
    | .keys => false
    | .dt => false
    | .rndIn => false

/-- Whether the kind's control word may write V[r], as its destination or as the flag (R13, R56). -/
def Instr.mayWriteReg (i : Instr) (r : RegIdx) : Bool :=
  (match (Instr.controlWord i).vx with
    | .none => false
    | .vx => r == Instr.xOperand i
    | .range => decide (r.toNat ≤ (Instr.xOperand i).toNat)) ||
  ((Instr.controlWord i).vf != .never && r == 0xF)

end Sys2Proof.Machine
end

