-- ==== Sys2Proof/Machine/Ports.lean ====
section
/-! DEFINITION. The core's interface to the host (spec/10_state.md R28, R29): the result of a step, the output ports, and the
host's events in any order (R110). `create` is in Machine/Ops.lean. -/

namespace Sys2Proof.Machine

/-- What a `step` returns to the host (R28, R104). -/
inductive StepOutcome where
  | retired
  | keyPending
  | keyResolved
  | faulted (r : FaultRecord)
  | halted
deriving DecidableEq, Repr

/-- The outcome of the state a non-waiting, non-faulted step ends in (R104): a record latched by this step, or an instruction retired. -/
def State.endedAs (t : State) : StepOutcome :=
  match t.fault with
  | some r => .faulted r
  | none => .retired

/-- The `StepOutcome` a `step` of this state returns (R104; log 12). `none` only where `step` answers no next state, which
it never does. -/
def stepOutcome (s : State) : Option StepOutcome :=
  if s.fault.isSome then some .halted
  else if s.waitKey then some (if s.freshKeys.isEmpty then .keyPending else .keyResolved)
  else
    match step s with
    | .next t => some t.endedAs
    | .fault _ => none
    | .refused _ => none

/-- The read-only view for the debugger, `state_out` (R28). -/
structure StateOut where
  pc : Word
  v : Vector Byte 16
  iReg : Word
  dt : Byte
  st : Byte
  sp : Fin 17
  stack : Vector Word 16
  waitKey : Bool
  waitReg : RegIdx
  fault : Option FaultRecord
deriving DecidableEq, Repr

/-- The port `state_out` (R28). -/
def State.stateOut (s : State) : StateOut :=
  { pc := s.pc, v := s.v, iReg := s.iReg, dt := s.dt, st := s.st, sp := s.sp, stack := s.stack,
    waitKey := s.waitKey, waitReg := s.waitReg, fault := s.fault }

/-- The port `screen_out` (R28). -/
def State.screenOut (s : State) : Screen := s.screen

/-- The port `st_out` (R18, R28). -/
def State.stOut (s : State) : Byte := s.st

/-- The events of a constructed VM (R28): each runs to completion on the state the one before left (R29). -/
inductive Event where
  | step
  | setKeys (k : KeyLevels)
  | timerPoll (elapsed : Nat)
deriving DecidableEq, Repr

/-- One event (R28). -/
def runEvent (e : Event) (s : State) : Result :=
  match e with
  | .step => step s
  | .setKeys k => .next (s.setKeys k)
  | .timerPoll elapsed => .next (s.timerPoll elapsed)

/-- Events in the order the host chose (R29, R110). -/
def runEvents : List Event → State → Result
  | [], s => .next s
  | e :: es, s =>
    match runEvent e s with
    | .next t => runEvents es t
    | .fault f => .fault f
    | .refused f => .refused f

end Sys2Proof.Machine
end

