-- ==== Sys2Proof/WellFormed.lean ====
section
/-! DEFINITION. Which descriptors some instruction word stands for (spec/30_encoding.md R50, R53). Only three kinds carry
a field that not every value fits: SYS excludes the two exact words, JP_OFF carries X twice, BAD carries a word that
no other row matches. -/

namespace Sys2Proof

/-- The illegal words, exactly as R53 lists them by family and trailing nibble or byte. -/
def isBadWord (w : Word) : Bool :=
  let op := w.extractLsb' 12 4
  let n := w.extractLsb' 0 4
  let nn := w.extractLsb' 0 8
  (op == 0x5#4 && n != 0x0#4) ||
  (op == 0x8#4 && (n == 0x8#4 || n == 0x9#4 || n == 0xA#4 || n == 0xB#4 || n == 0xC#4 || n == 0xD#4 || n == 0xF#4)) ||
  (op == 0x9#4 && n != 0x0#4) ||
  (op == 0xE#4 && nn != 0x9E#8 && nn != 0xA1#8) ||
  (op == 0xF#4 && nn != 0x07#8 && nn != 0x0A#8 && nn != 0x15#8 && nn != 0x18#8 && nn != 0x1E#8 &&
    nn != 0x29#8 && nn != 0x33#8 && nn != 0x55#8 && nn != 0x65#8)

/-- A descriptor some word decodes to: SYS is neither CLS nor RET (R50), the X of JP_OFF is NNN[11:8] (R48, R70), and
the word of BAD is a BAD word (R53). Every other descriptor is well formed. -/
def Instr.wellFormed : Instr → Bool
  | .sys nnn => nnn != 0x0E0#12 && nnn != 0x0EE#12
  | .cls => true
  | .ret => true
  | .jp _ => true
  | .call _ => true
  | .seImm _ _ => true
  | .sneImm _ _ => true
  | .seReg _ _ => true
  | .ldImm _ _ => true
  | .addImm _ _ => true
  | .ldReg _ _ => true
  | .orReg _ _ => true
  | .andReg _ _ => true
  | .xorReg _ _ => true
  | .addReg _ _ => true
  | .sub _ _ => true
  | .shr _ _ => true
  | .subn _ _ => true
  | .shl _ _ => true
  | .sneReg _ _ => true
  | .ldI _ => true
  | .jpOff x nnn => nnn.extractLsb' 8 4 == x
  | .rnd _ _ => true
  | .drw _ _ _ => true
  | .skp _ => true
  | .sknp _ => true
  | .ldVxDt _ => true
  | .ldK _ => true
  | .ldDt _ => true
  | .ldSt _ => true
  | .addI _ => true
  | .ldF _ => true
  | .ldB _ => true
  | .stRegs _ => true
  | .ldRegs _ => true
  | .bad w => isBadWord w

end Sys2Proof
end

