-- ==== Sys2Proof/Safety.lean ====
section
/-! DEFINITION. The terms statements about the machine use: what stays unchanged, which faults an instruction may raise, when a
state is consistent, where a run ends, what a sprite covers, how many ticks a series of polls makes. -/

namespace Sys2Proof

open Sys2Proof.Machine

/-- Every byte reads as before. -/
def SameMemory (s t : State) : Prop := ∀ a : Nat, t.mem.read a = s.mem.read a

/-- Every byte outside the `n` bytes from `base` up reads as before. -/
def SameMemoryOutside (base n : Nat) (s t : State) : Prop :=
  ∀ a : Nat, (a < base ∨ base + n ≤ a) → t.mem.read a = s.mem.read a

/-- Every register but `x` reads as before. -/
def SameRegsBut (x : RegIdx) (s t : State) : Prop := ∀ r : RegIdx, r ≠ x → t.reg r = s.reg r

/-- Every register but `x` and VF reads as before. -/
def SameRegsButFlag (x : RegIdx) (s t : State) : Prop := ∀ r : RegIdx, r ≠ x → r ≠ 0xF → t.reg r = s.reg r

/-- Every register reads as before. -/
def SameRegs (s t : State) : Prop := ∀ r : RegIdx, t.reg r = s.reg r

/-- `t` differs from `s` in its general registers and its pc at most: I, the stack, the timers, the divider, the screen, the keys,
the wait latch, the memory, the fault status and the configuration are as before. -/
def OnlyRegsAndPc (s t : State) : Prop := t = { s with v := t.v, pc := t.pc } ∧ SameMemory s t

/-- `t` differs from `s` in its pc at most. -/
def OnlyPc (s t : State) : Prop := t = { s with pc := t.pc } ∧ SameRegs s t ∧ SameMemory s t

/-- `t` is `s` with the record of a fault `k` at `s.pc` latched, and nothing else changed (R106). -/
def RaisedOn (s : State) (k : FaultKind) (t : State) : Prop := t = { s with fault := some { kind := k, pc := s.pc } }

/-- The faults an instruction's own execution may raise, and on what (R105, R108). -/
def mayRaise (i : Instr) (s : State) (k : FaultKind) : Prop :=
  match i with
  | .sys _ => False
  | .cls => False
  | .ret => k = .stackUnderflow ∧ s.sp.val = 0
  | .jp _ => False
  | .call _ => k = .stackOverflow ∧ s.sp.val = 16
  | .seImm _ _ => False
  | .sneImm _ _ => False
  | .seReg _ _ => False
  | .ldImm _ _ => False
  | .addImm _ _ => False
  | .ldReg _ _ => False
  | .orReg _ _ => False
  | .andReg _ _ => False
  | .xorReg _ _ => False
  | .addReg _ _ => False
  | .sub _ _ => False
  | .shr _ _ => False
  | .subn _ _ => False
  | .shl _ _ => False
  | .sneReg _ _ => False
  | .ldI _ => False
  | .jpOff _ _ => False
  | .rnd _ _ => False
  | .drw _ _ n => k = .addressOverflow (max s.iReg.toNat 0x1000) ∧ 0 < n.toNat ∧ 0xFFF < s.iReg.toNat + n.toNat - 1
  | .skp x => k = .keyIndexOutOfRange (s.reg x) ∧ 0xF < (s.reg x).toNat
  | .sknp x => k = .keyIndexOutOfRange (s.reg x) ∧ 0xF < (s.reg x).toNat
  | .ldVxDt _ => False
  | .ldK _ => False
  | .ldDt _ => False
  | .ldSt _ => False
  | .addI _ => False
  | .ldF x => k = .unimplemented (encode (.ldF x)) ∧ s.cfg.fx29Policy = .fault
  | .ldB _ => k = .addressOverflow (max s.iReg.toNat 0x1000) ∧ 0xFFF < s.iReg.toNat + 2
  | .stRegs x => k = .addressOverflow (max s.iReg.toNat 0x1000) ∧ 0xFFF < s.iReg.toNat + x.toNat
  | .ldRegs x => k = .addressOverflow (max s.iReg.toNat 0x1000) ∧ 0xFFF < s.iReg.toNat + x.toNat
  | .bad w => k = .badInstruction w

/-- A latched record agrees with the state it stands in, which no later step changes (R105, R106, R107): its pc is the core's
pc, and its kind is one the word at pc, or its fetch, raises there. -/
def RecordAgrees (s : State) (r : FaultRecord) : Prop :=
  r.pc = s.pc ∧
  (s.fetch = .error r.kind ∨ ∃ w, s.fetch = .ok w ∧ mayRaise (decode w) s r.kind)

/-- The invariant of the machine: memory is in its canonical form, the timer period is positive (R116), and a faulted core is
not waiting for a key and holds a record that agrees with the state (R104, R106). -/
def Inv (s : State) : Prop :=
  s.mem.wf = true ∧ 0 < s.cfg.timerPeriod ∧
  ∀ r, s.fault = some r → s.waitKey = false ∧ RecordAgrees s r

/-- The word at pc is a jump to itself (R129). -/
def AtSelfJump (s : State) : Prop :=
  s.fault = none ∧ s.waitKey = false ∧ ∃ nnn : Addr12, s.fetch = .ok (wordNNN 0x1 nnn) ∧ s.pc = nnn.setWidth 16

/-- The end of a run, for claims about programs (R129): a self-jump at pc, or a fault, which is never a normal result. It does not
say that the host stops stepping there. -/
def EndOfRun (s : State) : Prop := AtSelfJump s ∨ s.fault ≠ none

/-- The pixel (px, py) is under a 1 bit of the sprite DXYN draws (R98): row r and column c, bit 7 - c of the byte at I + r, from
the origin (VX mod 64, VY mod 32), clipped or wrapped. -/
def SpriteCovers (s : State) (x y : RegIdx) (n : Nibble) (px : Fin 64) (py : Fin 32) : Prop :=
  ∃ r c : Nat, r < n.toNat ∧ c < 8 ∧ (s.mem.read (s.iReg.toNat + r)).getLsbD (7 - c) = true ∧
    (if s.cfg.quirks.clipping then
      px.val = (s.reg x).toNat % 64 + c ∧ py.val = (s.reg y).toNat % 32 + r
    else
      px.val = ((s.reg x).toNat % 64 + c) % 64 ∧ py.val = ((s.reg y).toNat % 32 + r) % 32)

/-- Whether a poll ticks (R114). -/
def pollTicks (s : State) (elapsed : Nat) : Nat := if s.cfg.timerPeriod ≤ s.acc + elapsed then 1 else 0

/-- A series of polls: how many ticks it makes, and the state it ends in (R114, R117). -/
def runPolls : State → List Nat → Nat × State
  | s, [] => (0, s)
  | s, e :: es =>
    let rest := runPolls (s.timerPoll e) es
    (pollTicks s e + rest.1, rest.2)

end Sys2Proof
end

