-- ==== Sys2Proof/Certificates/Slice0/Obligations.lean ====
section
/-! DEFINITION. The statements for the provers, from the numbered rules of spec/. Each docstring names its rule. A rule's words marked
[decision] or [derived] are the spec's own choice or inference; a statement resting on one says so. -/

open Sys2Proof Sys2Proof.Machine

/-! ## The decoder -/

/-- R49, R50, R55: no bit of an encoding is dropped. -/
def Obligations.DecodeOfEncodeIsTheInstruction : Prop :=
  ∀ i : Instr, i.wellFormed = true → decode (encode i) = i

/-- R50: every word yields exactly one descriptor, and the descriptor keeps the whole word. -/
def Obligations.EncodeOfDecodeIsTheWord : Prop :=
  ∀ w : Word, (decode w).wellFormed = true ∧ encode (decode w) = w

/-- R53 (its list of words; the counts beside the list are not stated): the illegal encodings, by family and trailing nibble or
byte, in arithmetic on the word. -/
def Obligations.IllegalWordsAreExactlyTheListed : Prop :=
  ∀ w : Word,
    (∃ w', decode w = .bad w') ↔
      (let op := w.toNat / 4096
       let n := w.toNat % 16
       let nn := w.toNat % 256
       (op = 5 ∧ n ≠ 0) ∨ (op = 8 ∧ ((8 ≤ n ∧ n ≤ 13) ∨ n = 15)) ∨ (op = 9 ∧ n ≠ 0) ∨
       (op = 14 ∧ nn ≠ 0x9E ∧ nn ≠ 0xA1) ∨
       (op = 15 ∧ nn ∉ [0x07, 0x0A, 0x15, 0x18, 0x1E, 0x29, 0x33, 0x55, 0x65]))

/-- Words written out from R49 and spec/95_test_vectors.md 2.1. -/
def Obligations.SampleWordsDecode : Prop :=
  decode 0x0123 = .sys 0x123 ∧ decode 0x00E0 = .cls ∧ decode 0x00EE = .ret ∧ decode 0x00FF = .sys 0x0FF ∧
  decode 0x1ABC = .jp 0xABC ∧ decode 0x8126 = .shr 1 2 ∧ decode 0x8127 = .subn 1 2 ∧ decode 0x8128 = .bad 0x8128 ∧
  decode 0xBFFF = .jpOff 0xF 0xFFF ∧ decode 0xD123 = .drw 1 2 3 ∧ decode 0xE1A1 = .sknp 1 ∧
  decode 0xF265 = .ldRegs 2 ∧ decode 0xF000 = .bad 0xF000

/-- R35, R46: an instruction is two bytes, the high byte first; a shorter list is rejected by name (log 22). -/
def Obligations.DecodeTakesTwoBytesHighFirst : Prop :=
  (∀ (hi lo : Byte) (rest : List Byte),
    decodeBytes (hi :: lo :: rest) = .ok (decode (BitVec.ofNat 16 (256 * hi.toNat + lo.toNat)), rest)) ∧
  (∀ b : Byte, decodeBytes [b] = .error .oneByte) ∧ decodeBytes [] = .error .noBytes

/-! ## Fetch and memory -/

/-- R35: the bytes at pc and pc + 1, whose reported error is the spec's decision D5 (R33), and which it lets stand at any alignment by
its decision D8 (R37). -/
def Obligations.FetchReadsBigEndianOrFaults : Prop :=
  ∀ s : State,
    (s.pc.toNat + 1 ≤ 0xFFF →
      s.fetch = .ok (BitVec.ofNat 16 (256 * (s.mem.read s.pc.toNat).toNat + (s.mem.read (s.pc.toNat + 1)).toNat))) ∧
    (s.pc.toNat = 0xFFF → s.fetch = .error (.addressOverflow (s.pc.toNat + 1))) ∧
    (0xFFF < s.pc.toNat → s.fetch = .error (.addressOverflow s.pc.toNat))

/-- R33's primitives, whose choice of the reported error is the spec's decision D5: no address wraps. -/
def Obligations.MemoryAccessIsCheckedNeverWrapped : Prop :=
  ∀ (s : State) (a : Nat) (b : Byte),
    (0xFFF < a → s.memRead a = .error (.addressOverflow a) ∧ s.memWrite a b = .error (.addressOverflow a)) ∧
    (a ≤ 0xFFF → s.memRead a = .ok (s.mem.read a) ∧
      ∃ t, s.memWrite a b = .ok t ∧ t.memRead a = .ok b ∧ SameMemoryOutside a 1 s t ∧ t = { s with mem := t.mem })

/-- R44, the spec's decision D9: registers FX55 stores over the next word are what the very next fetch reads. -/
def Obligations.StoredBytesAreFetchedNext : Prop :=
  ∀ (x : RegIdx) (s : State), x ≠ 0 → s.iReg.toNat = s.pc.toNat + 2 → s.iReg.toNat + x.toNat ≤ 0xFFF →
    ∃ t, exec (.stRegs x) s = .next t ∧
      t.fetch = .ok (BitVec.ofNat 16 (256 * (s.reg 0).toNat + (s.reg 1).toNat))

/-! ## The step -/

/-- R104: the bytes at pc, decoded, are what a step executes; around exec it adds only that an instruction that raised no fault
samples the keys. -/
def Obligations.StepRunsTheDecodedInstruction : Prop :=
  ∀ (s t : State) (i : Instr), s.fault = none → s.waitKey = false → s.pc.toNat + 1 ≤ 0xFFF →
    decode (BitVec.ofNat 16 (256 * (s.mem.read s.pc.toNat).toNat + (s.mem.read (s.pc.toNat + 1)).toNat)) = i →
    exec i s = .next t →
    step s = .next (if t.fault = none then { t with keyPrev := t.keys } else t)

/-- R104, case by case, with the outcome each returns. -/
def Obligations.StepDoesExactlyOneThing : Prop :=
  ∀ s : State,
    (s.fault ≠ none → step s = .next s ∧ stepOutcome s = some .halted) ∧
    (s.fault = none → s.waitKey = true →
      step s = .next s.keyWaitPoll ∧
      stepOutcome s = some (if s.keyWaitPoll.waitKey then .keyPending else .keyResolved)) ∧
    (∀ k, s.fault = none → s.waitKey = false → s.fetch = .error k →
      step s = .next { s with fault := some { kind := k, pc := s.pc } } ∧
      stepOutcome s = some (.faulted { kind := k, pc := s.pc })) ∧
    (∀ w, s.fault = none → s.waitKey = false → s.fetch = .ok w →
      ∃ t, exec (decode w) s = .next t ∧
        ((t.fault = none ∧ step s = .next { t with keyPrev := s.keys } ∧ stepOutcome s = some .retired) ∨
         (∃ r, t.fault = some r ∧ step s = .next t ∧ stepOutcome s = some (.faulted r))))

/-- R107, the spec's decision D23: a fault is sticky, and the host may still poll the timers and write the keys. -/
def Obligations.FaultedCoreStaysHalted : Prop :=
  ∀ (s : State) (r : FaultRecord), s.fault = some r →
    step s = .next s ∧ stepOutcome s = some .halted ∧
    (∀ es t, runEvents es s = .next t → t.fault = some r ∧ t.pc = s.pc ∧ t.v = s.v ∧ t.mem = s.mem ∧ t.screen = s.screen)

/-- R106: a step that raises a fault changes nothing but the fault status, and reports the record. -/
def Obligations.FaultsArePrecise : Prop :=
  ∀ (s t : State) (r : FaultRecord), s.fault = none → step s = .next t → t.fault = some r →
    r.pc = s.pc ∧ t = { s with fault := some r } ∧ stepOutcome s = some (.faulted r)

/-- R105, R108 (an inference the spec marks as its own, with D5, D19, D21, D22): each kind has at most one fault of its own, and raises
it on exactly these states. -/
def Obligations.EachKindRaisesItsOwnFaultOnly : Prop :=
  ∀ (i : Instr) (s : State) (k : FaultKind), s.fault = none →
    ((∃ t, exec i s = .next t ∧ RaisedOn s k t) ↔ mayRaise i s k)

/-- Every instruction answers a next state on every state: a fault of the spec is a next state too (log 9). -/
def Obligations.EveryInstructionAnswersANextState : Prop :=
  ∀ (i : Instr) (s : State), ∃ t, exec i s = .next t ∧
    (t.fault = s.fault ∨ ∃ k, mayRaise i s k ∧ RaisedOn s k t)

/-! ## The invariant -/

/-- Every step keeps the invariant: canonical memory, a positive period, a fault record that agrees with the state. -/
def Obligations.StepKeepsTheInvariant : Prop :=
  ∀ s t : State, Inv s → step s = .next t → Inv t

/-- The invariant holds right after reset, with the model's default arguments (log 2, 3, 4, 5). -/
def Obligations.ResetMeetsTheInvariant : Prop := Inv State.reset

/-- R29, R110: the invariant holds after any events in any order the host may use. -/
def Obligations.EventsInAnyOrderKeepTheInvariant : Prop :=
  ∀ (es : List Event) (s t : State), Inv s → runEvents es s = .next t → Inv t

/-- Every VM `create` constructs meets the invariant. -/
def Obligations.CreateMeetsTheInvariant : Prop :=
  ∀ (image : List Byte) (offset start : Word) (cfg : Config) (s : State),
    create image offset start cfg = .next s → Inv s

/-! ## Reset -/

/-- R30, R122, with the spec's decisions D4 and D27 and the model's own refusal of a period of 0 (log 23): what
`create` leaves, for every argument. -/
def Obligations.CreateLeavesTheResetState : Prop :=
  ∀ (image : List Byte) (offset start : Word) (cfg : Config),
    (4096 < offset.toNat + image.length → create image offset start cfg = .refused .imageDoesNotFit) ∧
    (offset.toNat + image.length ≤ 4096 → cfg.timerPeriod = 0 →
      create image offset start cfg = .refused .zeroTimerPeriod) ∧
    (offset.toNat + image.length ≤ 4096 → 0 < cfg.timerPeriod →
      ∃ s, create image offset start cfg = .next s ∧
        s.pc = start ∧ s.cfg = cfg ∧ (∀ r, s.reg r = 0) ∧ s.iReg = 0 ∧ s.sp.val = 0 ∧
        (∀ k : Fin 16, s.stack[k] = 0) ∧ s.dt = 0 ∧ s.st = 0 ∧ s.acc = 0 ∧
        (∀ x y, s.screen.pixel x y = false) ∧ (∀ k : Fin 16, s.keys[k] = false ∧ s.keyPrev[k] = false) ∧
        s.waitKey = false ∧ s.waitReg = 0 ∧ s.fault = none ∧
        (∀ (k : Nat) (h : k < image.length), s.mem.read (offset.toNat + k) = image[k]) ∧
        (∀ a, (a < offset.toNat ∨ offset.toNat + image.length ≤ a) → s.mem.read a = 0))

/-- The model's choice of arguments for `State.reset` (log 2, 3, 4, 5): it is what `create` leaves for the empty image at the
historical defaults 0x200, and its first step fetches there. -/
def Obligations.ResetIsCreateAtTheDefaults : Prop :=
  create [] 0x200 0x200 resetConfig = .next State.reset ∧ State.reset.pc = 0x200 ∧
  State.reset.fault = none ∧ State.reset.waitKey = false ∧ (∀ r, State.reset.reg r = 0) ∧
  (∀ a, State.reset.mem.read a = 0)

/-! ## Rules over all instructions -/

/-- R24 (its statement that the configuration is read-only; the bit positions beside it are the decision D3): no instruction and no
event changes it. -/
def Obligations.ConfigurationNeverChanges : Prop :=
  ∀ (es : List Event) (s t : State), runEvents es s = .next t → t.cfg = s.cfg

/-- R24, the spec's decision D17: `display_wait` has no effect on any instruction. -/
def Obligations.DisplayWaitHasNoEffect : Prop :=
  ∀ (i : Instr) (s t : State) (b : Bool), exec i s = .next t →
    exec i { s with cfg := { s.cfg with quirks := { s.cfg.quirks with displayWait := b } } } =
      .next { t with cfg := { t.cfg with quirks := { t.cfg.quirks with displayWait := b } } }

/-- R19: no instruction reads or writes the divider's accumulator. -/
def Obligations.InstructionsIgnoreTheDivider : Prop :=
  ∀ (i : Instr) (s t : State) (a : Nat), exec i s = .next t →
    t.acc = s.acc ∧ exec i { s with acc := a } = .next { t with acc := a }

/-- R21: the core never writes `Keys`; the host's event does, and nothing else with it. -/
def Obligations.OnlyTheHostWritesKeys : Prop :=
  (∀ s t : State, step s = .next t → t.keys = s.keys) ∧
  (∀ (s : State) (e : Nat), (s.timerPoll e).keys = s.keys) ∧
  (∀ (s : State) (k : KeyLevels), runEvent (.setKeys k) s = .next { s with keys := k })

/-- R22, the spec's decision D20: `key_prev` is sampled by exactly the steps that retire or poll. -/
def Obligations.KeysAreSampledByStepsThatRetireOrPoll : Prop :=
  ∀ s t : State, step s = .next t →
    (t.fault = none → t.keyPrev = s.keys) ∧ (t.fault ≠ none → t.keyPrev = s.keyPrev)

/-- R56, a table the spec derives from the family rules, column by column: what an instruction's control word does not
say it writes is unchanged; keys, sampled keys, divider and configuration are never written. -/
def Obligations.InstructionsWriteOnlyWhatTheirControlWordSays : Prop :=
  ∀ (i : Instr) (s t : State), exec i s = .next t →
    (∀ r, Instr.mayWriteReg i r = false → t.reg r = s.reg r) ∧
    ((Instr.controlWord i).i = .never → t.iReg = s.iReg) ∧
    ((∀ n, (Instr.controlWord i).memory ≠ .write n) → SameMemory s t) ∧
    (∀ n, (Instr.controlWord i).memory = .write n → SameMemoryOutside s.iReg.toNat n s t) ∧
    ((Instr.controlWord i).stack = .none → t.sp = s.sp) ∧
    ((Instr.controlWord i).stack ≠ .push → t.stack = s.stack) ∧
    ((Instr.controlWord i).unit ≠ .screenClear → (Instr.controlWord i).unit ≠ .blit → t.screen = s.screen) ∧
    ((Instr.controlWord i).unit ≠ .loadDt → t.dt = s.dt) ∧
    ((Instr.controlWord i).unit ≠ .loadSt → t.st = s.st) ∧
    ((Instr.controlWord i).unit ≠ .setWaitLatch → t.waitKey = s.waitKey ∧ t.waitReg = s.waitReg) ∧
    (ReadPort.rndIn ∉ (Instr.controlWord i).reads → t.rndDraws = s.rndDraws) ∧
    t.acc = s.acc ∧ t.keys = s.keys ∧ t.keyPrev = s.keyPrev ∧ t.cfg = s.cfg ∧
    (s.fault = none → t.fault = none →
      (((Instr.controlWord i).pc = .plus2 ∨ (Instr.controlWord i).pc = .plus2OrFault) → t.pc = s.pc + 2) ∧
      ((Instr.controlWord i).pc = .skip → t.pc = s.pc + 2 ∨ t.pc = s.pc + 4) ∧
      (Instr.controlWord i).pc ≠ .fault)

/-- R56's column "reads" (derived by the spec): a register that the control word neither reads nor writes has no influence on what
the instruction does, faults included. -/
def Obligations.RegistersNotReadHaveNoInfluence : Prop :=
  ∀ (i : Instr) (s t : State) (r : RegIdx) (b : Byte),
    Instr.readsReg i r = false → Instr.mayWriteReg i r = false →
    exec i s = .next t → exec i (s.setReg r b) = .next (t.setReg r b)

/-! ## Control flow -/

/-- R62, from the word: every 0NNN word but 00E0 and 00EE only advances pc. -/
def Obligations.SysOnlyAdvancesPc : Prop :=
  (∀ (nnn : Addr12) (s : State), ∃ t, exec (.sys nnn) s = .next t ∧ t.pc = s.pc + 2 ∧ OnlyPc s t) ∧
  (∀ w : Word, w.toNat < 0x1000 → w ≠ 0x00E0 → w ≠ 0x00EE → decode w = .sys (w.setWidth 12))

/-- R63, whose return to the popped value as it is the spec decides (D14): RET pops, and with sp = 0 raises
StackUnderflow. -/
def Obligations.RetPopsOrUnderflows : Prop :=
  ∀ s : State,
    (∀ (k : Fin 16), s.sp.val = k.val + 1 →
      ∃ t, exec .ret s = .next t ∧ t.pc = s.stack[k] ∧ t.sp.val = k.val ∧
        t = { s with pc := t.pc, sp := t.sp } ∧ SameRegs s t ∧ SameMemory s t) ∧
    (s.sp.val = 0 → ∃ t, exec .ret s = .next t ∧ RaisedOn s .stackUnderflow t)

/-- R64. -/
def Obligations.JpWritesThePcWithItsAddress : Prop :=
  ∀ (nnn : Addr12) (s : State), ∃ t, exec (.jp nnn) s = .next t ∧ t.pc.toNat = nnn.toNat ∧ OnlyPc s t

/-- R65, whose pushed value pc + 2 the spec decides (D14): CALL pushes and jumps, and with sp = 16 raises StackOverflow. -/
def Obligations.CallPushesAndJumpsOrOverflows : Prop :=
  ∀ (nnn : Addr12) (s : State),
    (∀ (k : Fin 16), s.sp.val = k.val →
      ∃ t, exec (.call nnn) s = .next t ∧ t.pc.toNat = nnn.toNat ∧ t.sp.val = k.val + 1 ∧
        t.stack[k] = s.pc + 2 ∧ (∀ j : Fin 16, j ≠ k → t.stack[j] = s.stack[j]) ∧
        t = { s with pc := t.pc, sp := t.sp, stack := t.stack } ∧ SameRegs s t ∧ SameMemory s t) ∧
    (s.sp.val = 16 → ∃ t, exec (.call nnn) s = .next t ∧ RaisedOn s .stackOverflow t)

/-- R63 with R65 (decision D14): a return right after a call goes to the instruction after the call and leaves the depth, the live
entries, the registers and the memory as before. -/
def Obligations.ReturnGoesBackPastTheCall : Prop :=
  ∀ (nnn : Addr12) (s t u : State), s.sp.val < 16 → exec (.call nnn) s = .next t → exec .ret t = .next u →
    u.pc = s.pc + 2 ∧ u.sp = s.sp ∧ (∀ j : Fin 16, j.val < s.sp.val → u.stack[j] = s.stack[j]) ∧
    u = { s with pc := u.pc, stack := u.stack }

/-- R66, R67, R68, R69: the four compare-and-skip instructions. -/
def Obligations.SkipsAdvanceByFourOrTwo : Prop :=
  ∀ (x y : RegIdx) (nn : Byte) (s : State),
    (∃ t, exec (.seImm x nn) s = .next t ∧ OnlyPc s t ∧
      (s.reg x = nn → t.pc = s.pc + 4) ∧ (s.reg x ≠ nn → t.pc = s.pc + 2)) ∧
    (∃ t, exec (.sneImm x nn) s = .next t ∧ OnlyPc s t ∧
      (s.reg x ≠ nn → t.pc = s.pc + 4) ∧ (s.reg x = nn → t.pc = s.pc + 2)) ∧
    (∃ t, exec (.seReg x y) s = .next t ∧ OnlyPc s t ∧
      (s.reg x = s.reg y → t.pc = s.pc + 4) ∧ (s.reg x ≠ s.reg y → t.pc = s.pc + 2)) ∧
    (∃ t, exec (.sneReg x y) s = .next t ∧ OnlyPc s t ∧
      (s.reg x ≠ s.reg y → t.pc = s.pc + 4) ∧ (s.reg x = s.reg y → t.pc = s.pc + 2))

/-- R70: the sum is exact and is not wrapped. -/
def Obligations.JumpWithOffsetAddsTheQuirkRegister : Prop :=
  ∀ (x : RegIdx) (nnn : Addr12) (s : State), ∃ t, exec (.jpOff x nnn) s = .next t ∧ OnlyPc s t ∧
    (s.cfg.quirks.jumping = false → t.pc.toNat = nnn.toNat + (s.reg 0).toNat) ∧
    (s.cfg.quirks.jumping = true → t.pc.toNat = nnn.toNat + (s.reg x).toNat)

/-- R61, the spec's decision D8: a jump, call or return to a target whose fetch fails retires, and the next step raises the fault of
that fetch. -/
def Obligations.BadTargetFaultsAtTheNextFetch : Prop :=
  ∀ (w : Word) (s t : State), s.fault = none → s.waitKey = false → s.fetch = .ok w →
    (Instr.controlWord (decode w)).pc = .target → step s = .next t → t.fault = none → 0xFFE < t.pc.toNat →
    stepOutcome s = some .retired ∧
    ∃ u, step t = .next u ∧ RaisedOn t (.addressOverflow (max t.pc.toNat 0x1000)) u

/-- R129 and the corner case of R64 (the end of a run is the spec's definition, decision D28): the host's steps keep retiring a
self-jump, and only the sampled keys can change. -/
def Obligations.SelfJumpRetiresAgain : Prop :=
  ∀ s : State, AtSelfJump s →
    step s = .next { s with keyPrev := s.keys } ∧ AtSelfJump { s with keyPrev := s.keys } ∧
    stepOutcome s = some .retired

/-! ## Registers and ALU -/

/-- R75, R77. -/
def Obligations.LoadsIntoVxWriteNoFlag : Prop :=
  ∀ (x y : RegIdx) (nn : Byte) (s : State),
    (∃ t, exec (.ldImm x nn) s = .next t ∧ t.reg x = nn ∧ SameRegsBut x s t ∧ t.pc = s.pc + 2 ∧ OnlyRegsAndPc s t) ∧
    (∃ t, exec (.ldReg x y) s = .next t ∧ t.reg x = s.reg y ∧ SameRegsBut x s t ∧ t.pc = s.pc + 2 ∧ OnlyRegsAndPc s t)

/-- R76, whose leaving VF alone the spec decides (D11). -/
def Obligations.AddImmediateWrapsAndWritesNoFlag : Prop :=
  ∀ (x : RegIdx) (nn : Byte) (s : State), ∃ t, exec (.addImm x nn) s = .next t ∧
    (t.reg x).toNat = ((s.reg x).toNat + nn.toNat) % 256 ∧ SameRegsBut x s t ∧ t.pc = s.pc + 2 ∧ OnlyRegsAndPc s t

/-- R78, R79, R80: with `vf_reset` VF ends as 0, the result of X = 0xF included; without it VF is touched only as the
destination. -/
def Obligations.BitwiseResultsAndTheResetFlag : Prop :=
  ∀ (x y : RegIdx) (s : State) (i : Instr) (r : Byte),
    ((i = .orReg x y ∧ r = s.reg x ||| s.reg y) ∨ (i = .andReg x y ∧ r = s.reg x &&& s.reg y) ∨
      (i = .xorReg x y ∧ r = s.reg x ^^^ s.reg y)) →
    ∃ t, exec i s = .next t ∧ t.pc = s.pc + 2 ∧ OnlyRegsAndPc s t ∧
      (s.cfg.quirks.vfReset = true → t.reg 0xF = 0 ∧ (x ≠ 0xF → t.reg x = r) ∧ SameRegsButFlag x s t) ∧
      (s.cfg.quirks.vfReset = false → t.reg x = r ∧ SameRegsBut x s t)

/-- R81; that the flag is written last, so that X = 0xF ends as the carry, the spec decides (D10). -/
def Obligations.AddSetsVxAndCarry : Prop :=
  ∀ (x y : RegIdx) (s : State), ∃ t, exec (.addReg x y) s = .next t ∧
    (x ≠ 0xF → (t.reg x).toNat = ((s.reg x).toNat + (s.reg y).toNat) % 256) ∧
    (255 < (s.reg x).toNat + (s.reg y).toNat → t.reg 0xF = 1) ∧
    ((s.reg x).toNat + (s.reg y).toNat ≤ 255 → t.reg 0xF = 0) ∧
    SameRegsButFlag x s t ∧ t.pc = s.pc + 2 ∧ OnlyRegsAndPc s t

/-- R82; that the flag is written last, so that X = 0xF ends as the flag, the spec decides (D10). -/
def Obligations.SubSetsVxAndNoBorrow : Prop :=
  ∀ (x y : RegIdx) (s : State), ∃ t, exec (.sub x y) s = .next t ∧
    (x ≠ 0xF → ((t.reg x).toNat : Int) = ((s.reg x).toNat - (s.reg y).toNat : Int) % 256) ∧
    ((s.reg x).toNat < (s.reg y).toNat → t.reg 0xF = 0) ∧
    ((s.reg y).toNat ≤ (s.reg x).toNat → t.reg 0xF = 1) ∧
    SameRegsButFlag x s t ∧ t.pc = s.pc + 2 ∧ OnlyRegsAndPc s t

/-- R83; that the flag is written last, so that X = 0xF ends as the flag, the spec decides (D10). -/
def Obligations.SubnSetsVxAndNoBorrow : Prop :=
  ∀ (x y : RegIdx) (s : State), ∃ t, exec (.subn x y) s = .next t ∧
    (x ≠ 0xF → ((t.reg x).toNat : Int) = ((s.reg y).toNat - (s.reg x).toNat : Int) % 256) ∧
    ((s.reg y).toNat < (s.reg x).toNat → t.reg 0xF = 0) ∧
    ((s.reg x).toNat ≤ (s.reg y).toNat → t.reg 0xF = 1) ∧
    SameRegsButFlag x s t ∧ t.pc = s.pc + 2 ∧ OnlyRegsAndPc s t

/-- R84, R85: the value shifted is VX when `shifting`, else VY; VF is the bit shifted out of it, written last. -/
def Obligations.ShiftsMoveOneBitIntoVf : Prop :=
  ∀ (x y : RegIdx) (s : State) (a : Byte),
    a = (if s.cfg.quirks.shifting then s.reg x else s.reg y) →
    (∃ t, exec (.shr x y) s = .next t ∧ (x ≠ 0xF → (t.reg x).toNat = a.toNat / 2) ∧
      (t.reg 0xF).toNat = a.toNat % 2 ∧ SameRegsButFlag x s t ∧ t.pc = s.pc + 2 ∧ OnlyRegsAndPc s t) ∧
    (∃ t, exec (.shl x y) s = .next t ∧ (x ≠ 0xF → (t.reg x).toNat = 2 * a.toNat % 256) ∧
      (t.reg 0xF).toNat = a.toNat / 128 ∧ SameRegsButFlag x s t ∧ t.pc = s.pc + 2 ∧ OnlyRegsAndPc s t)

/-! ## Index register and memory transfers -/

/-- R88. -/
def Obligations.LoadIndexWritesTheAddress : Prop :=
  ∀ (nnn : Addr12) (s : State), ∃ t, exec (.ldI nnn) s = .next t ∧ t.iReg.toNat = nnn.toNat ∧ t.pc = s.pc + 2 ∧
    t = { s with iReg := t.iReg, pc := t.pc } ∧ SameRegs s t ∧ SameMemory s t

/-- R89, whose leaving VF alone the spec decides (D12), as it does the width of the sum (D7). -/
def Obligations.AddIndexWrapsAtSixteenBits : Prop :=
  ∀ (x : RegIdx) (s : State), ∃ t, exec (.addI x) s = .next t ∧
    t.iReg.toNat = (s.iReg.toNat + (s.reg x).toNat) % 65536 ∧ t.pc = s.pc + 2 ∧
    t = { s with iReg := t.iReg, pc := t.pc } ∧ SameRegs s t ∧ SameMemory s t

/-- R90, a parameter by the spec's decision D21: a glyph address under Font, the fault Unimplemented under Fault. -/
def Obligations.SpriteAddressFollowsThePolicy : Prop :=
  ∀ (x : RegIdx) (s : State),
    (∀ base, s.cfg.fx29Policy = .font base →
      ∃ t, exec (.ldF x) s = .next t ∧
        t.iReg.toNat = (base.toNat + 5 * ((s.reg x).toNat % 16)) % 65536 ∧ t.pc = s.pc + 2 ∧
        t = { s with iReg := t.iReg, pc := t.pc } ∧ SameRegs s t ∧ SameMemory s t) ∧
    (s.cfg.fx29Policy = .fault →
      ∃ t, exec (.ldF x) s = .next t ∧ RaisedOn s (.unimplemented (BitVec.ofNat 16 (0xF029 + 256 * x.toNat))) t)

/-- R91, whose leaving I alone the spec decides (D13); the fault is R34's first failing address (D5, D6). -/
def Obligations.BcdStoresThreeDigits : Prop :=
  ∀ (x : RegIdx) (s : State),
    (s.iReg.toNat + 2 ≤ 0xFFF →
      ∃ t, exec (.ldB x) s = .next t ∧
        (t.mem.read s.iReg.toNat).toNat = (s.reg x).toNat / 100 ∧
        (t.mem.read (s.iReg.toNat + 1)).toNat = (s.reg x).toNat / 10 % 10 ∧
        (t.mem.read (s.iReg.toNat + 2)).toNat = (s.reg x).toNat % 10 ∧
        SameMemoryOutside s.iReg.toNat 3 s t ∧ t.pc = s.pc + 2 ∧
        t = { s with mem := t.mem, pc := t.pc } ∧ SameRegs s t) ∧
    (0xFFF < s.iReg.toNat + 2 →
      ∃ t, exec (.ldB x) s = .next t ∧ RaisedOn s (.addressOverflow (max s.iReg.toNat 0x1000)) t)

/-- R92; that an address past memory is the fault of the first failing address, found before any write, the spec decides
(D5, D6). -/
def Obligations.RegisterDumpStoresV0ToVx : Prop :=
  ∀ (x : RegIdx) (s : State),
    (s.iReg.toNat + x.toNat ≤ 0xFFF →
      ∃ t, exec (.stRegs x) s = .next t ∧
        (∀ k : RegIdx, k.toNat ≤ x.toNat → t.mem.read (s.iReg.toNat + k.toNat) = s.reg k) ∧
        SameMemoryOutside s.iReg.toNat (x.toNat + 1) s t ∧
        (s.cfg.quirks.memory = true → t.iReg.toNat = (s.iReg.toNat + x.toNat + 1) % 65536) ∧
        (s.cfg.quirks.memory = false → t.iReg = s.iReg) ∧ t.pc = s.pc + 2 ∧
        t = { s with mem := t.mem, iReg := t.iReg, pc := t.pc } ∧ SameRegs s t) ∧
    (0xFFF < s.iReg.toNat + x.toNat →
      ∃ t, exec (.stRegs x) s = .next t ∧ RaisedOn s (.addressOverflow (max s.iReg.toNat 0x1000)) t)

/-- R93; that an address past memory is the fault of the first failing address, found before any write, the spec decides
(D5, D6). -/
def Obligations.RegisterLoadFillsV0ToVx : Prop :=
  ∀ (x : RegIdx) (s : State),
    (s.iReg.toNat + x.toNat ≤ 0xFFF →
      ∃ t, exec (.ldRegs x) s = .next t ∧
        (∀ k : RegIdx, k.toNat ≤ x.toNat → t.reg k = s.mem.read (s.iReg.toNat + k.toNat)) ∧
        (∀ k : RegIdx, x.toNat < k.toNat → t.reg k = s.reg k) ∧
        (s.cfg.quirks.memory = true → t.iReg.toNat = (s.iReg.toNat + x.toNat + 1) % 65536) ∧
        (s.cfg.quirks.memory = false → t.iReg = s.iReg) ∧ t.pc = s.pc + 2 ∧
        t = { s with v := t.v, iReg := t.iReg, pc := t.pc } ∧ SameMemory s t) ∧
    (0xFFF < s.iReg.toNat + x.toNat →
      ∃ t, exec (.ldRegs x) s = .next t ∧ RaisedOn s (.addressOverflow (max s.iReg.toNat 0x1000)) t)

/-! ## Timers -/

/-- R94, R95, R96. -/
def Obligations.TimerRegistersMoveThroughVx : Prop :=
  ∀ (x : RegIdx) (s : State),
    (∃ t, exec (.ldVxDt x) s = .next t ∧ t.reg x = s.dt ∧ SameRegsBut x s t ∧ t.pc = s.pc + 2 ∧ OnlyRegsAndPc s t) ∧
    (∃ t, exec (.ldDt x) s = .next t ∧ t.dt = s.reg x ∧ t.pc = s.pc + 2 ∧
      t = { s with dt := t.dt, pc := t.pc } ∧ SameRegs s t ∧ SameMemory s t) ∧
    (∃ t, exec (.ldSt x) s = .next t ∧ t.st = s.reg x ∧ State.stOut t = s.reg x ∧ t.pc = s.pc + 2 ∧
      t = { s with st := t.st, pc := t.pc } ∧ SameRegs s t ∧ SameMemory s t)

/-- R114, R115, with time as a natural number (the model's choice, log 4): at most one tick per poll, the excess carried forward,
whatever the fault and wait state. -/
def Obligations.TimerPollCarriesForwardAndTicksOnce : Prop :=
  ∀ (s : State) (e : Nat),
    (s.acc + e < s.cfg.timerPeriod → s.timerPoll e = { s with acc := s.acc + e }) ∧
    (s.cfg.timerPeriod ≤ s.acc + e →
      (s.timerPoll e).acc + s.cfg.timerPeriod = s.acc + e ∧
      (s.timerPoll e).dt.toNat = s.dt.toNat - 1 ∧ (s.timerPoll e).st.toNat = s.st.toNat - 1 ∧
      s.timerPoll e = { s with acc := (s.timerPoll e).acc, dt := (s.timerPoll e).dt, st := (s.timerPoll e).st })

/-- R117, which the spec derives from R114, with time as a natural number (log 4): no time is lost, the ticks never run
ahead, and with no gap above a period the count is exactly the floor. -/
def Obligations.TimerDriftIsBounded : Prop :=
  ∀ (s t : State) (es : List Nat) (ticks : Nat), 0 < s.cfg.timerPeriod → runPolls s es = (ticks, t) →
    ticks * s.cfg.timerPeriod + t.acc = s.acc + es.sum ∧
    ticks ≤ (s.acc + es.sum) / s.cfg.timerPeriod ∧
    t.dt.toNat = s.dt.toNat - ticks ∧ t.st.toNat = s.st.toNat - ticks ∧
    (s.acc < s.cfg.timerPeriod → (∀ e ∈ es, e ≤ s.cfg.timerPeriod) →
      t.acc < s.cfg.timerPeriod ∧ ticks = (s.acc + es.sum) / s.cfg.timerPeriod)

/-! ## Screen, keys, random -/

/-- R97. -/
def Obligations.ClsClearsEveryPixel : Prop :=
  ∀ s : State, ∃ t, exec .cls s = .next t ∧ (∀ x y, t.screen.pixel x y = false) ∧ t.pc = s.pc + 2 ∧
    t = { s with screen := t.screen, pc := t.pc } ∧ SameRegs s t ∧ SameMemory s t

/-- R98, with the spec's decision D16 for N = 0 and D5, D6 for the fault: exactly the covered pixels are toggled, each once; VF is the
collision; a row byte above 0xFFF is the fault. -/
def Obligations.DrawTogglesTheCoveredPixels : Prop :=
  ∀ (x y : RegIdx) (n : Nibble) (s : State),
    ((n = 0 ∨ s.iReg.toNat + n.toNat - 1 ≤ 0xFFF) →
      ∃ t, exec (.drw x y n) s = .next t ∧
        (∀ px py, SpriteCovers s x y n px py → t.screen.pixel px py = !s.screen.pixel px py) ∧
        (∀ px py, ¬ SpriteCovers s x y n px py → t.screen.pixel px py = s.screen.pixel px py) ∧
        ((∃ px py, SpriteCovers s x y n px py ∧ s.screen.pixel px py = true) → t.reg 0xF = 1) ∧
        ((¬ ∃ px py, SpriteCovers s x y n px py ∧ s.screen.pixel px py = true) → t.reg 0xF = 0) ∧
        SameRegsBut 0xF s t ∧ t.pc = s.pc + 2 ∧
        t = { s with screen := t.screen, v := t.v, pc := t.pc } ∧ SameMemory s t) ∧
    (n ≠ 0 → 0xFFF < s.iReg.toNat + n.toNat - 1 →
      ∃ t, exec (.drw x y n) s = .next t ∧ RaisedOn s (.addressOverflow (max s.iReg.toNat 0x1000)) t)

/-- The source's draw idempotence (spec/95_test_vectors.md S4, R98): drawing the same sprite twice restores the screen, and the second
draw collides exactly where the first set a pixel. -/
def Obligations.DrawingTwiceRestoresTheScreen : Prop :=
  ∀ (x y : RegIdx) (n : Nibble) (s t u : State), x ≠ 0xF → y ≠ 0xF →
    (n = 0 ∨ s.iReg.toNat + n.toNat - 1 ≤ 0xFFF) →
    exec (.drw x y n) s = .next t → exec (.drw x y n) t = .next u →
    u.screen = s.screen ∧
    (u.reg 0xF = 1 ↔ ∃ px py, s.screen.pixel px py = false ∧ t.screen.pixel px py = true)

/-- R99, whose byte is a free draw by the spec's decision D18 (log 7): for every byte the draw may give, VX ends as that
byte masked, and each execution draws once. -/
def Obligations.RandomIsTheDrawnByteMasked : Prop :=
  ∀ (x : RegIdx) (nn : Byte) (s : State), ∃ (t : State) (r : Byte), exec (.rnd x nn) s = .next t ∧
    r = Config.rndIn s.rndDraws ∧ t.reg x = r &&& nn ∧ SameRegsBut x s t ∧ t.pc = s.pc + 2 ∧
    t.rndDraws = s.rndDraws + 1 ∧ t = { s with v := t.v, pc := t.pc, rndDraws := t.rndDraws } ∧ SameMemory s t

/-- R100, R101, with the spec's decision D19 for a key index above 0xF. -/
def Obligations.KeySkipsTestTheLevel : Prop :=
  ∀ (x : RegIdx) (s : State),
    (∀ k : Fin 16, (s.reg x).toNat = k.val →
      (∃ t, exec (.skp x) s = .next t ∧ OnlyPc s t ∧
        (s.keys[k] = true → t.pc = s.pc + 4) ∧ (s.keys[k] = false → t.pc = s.pc + 2)) ∧
      (∃ t, exec (.sknp x) s = .next t ∧ OnlyPc s t ∧
        (s.keys[k] = false → t.pc = s.pc + 4) ∧ (s.keys[k] = true → t.pc = s.pc + 2))) ∧
    (0xF < (s.reg x).toNat →
      (∃ t, exec (.skp x) s = .next t ∧ RaisedOn s (.keyIndexOutOfRange (s.reg x)) t) ∧
      (∃ t, exec (.sknp x) s = .next t ∧ RaisedOn s (.keyIndexOutOfRange (s.reg x)) t))

/-- R102. -/
def Obligations.KeyWaitSetsTheLatch : Prop :=
  ∀ (x : RegIdx) (s : State), ∃ t, exec (.ldK x) s = .next t ∧ t.waitKey = true ∧ t.waitReg = x ∧ t.pc = s.pc + 2 ∧
    t = { s with waitKey := t.waitKey, waitReg := t.waitReg, pc := t.pc } ∧ SameRegs s t ∧ SameMemory s t

/-- R103, whose mechanism is the spec's decision D20: the lowest fresh press resolves the wait, and without one only
the sampled keys change. -/
def Obligations.KeyWaitPollTakesTheLowestFreshKey : Prop :=
  ∀ s : State, s.fault = none → s.waitKey = true →
    (∀ k : Fin 16, s.keys[k] = true → s.keyPrev[k] = false →
      (∀ j : Fin 16, j < k → s.keys[j] = false ∨ s.keyPrev[j] = true) →
      ∃ t, step s = .next t ∧ stepOutcome s = some .keyResolved ∧
        (t.reg s.waitReg).toNat = k.val ∧ SameRegsBut s.waitReg s t ∧ t.waitKey = false ∧
        t = { s with v := t.v, keyPrev := s.keys, waitKey := false }) ∧
    ((∀ k : Fin 16, s.keys[k] = false ∨ s.keyPrev[k] = true) →
      step s = .next { s with keyPrev := s.keys } ∧ stepOutcome s = some .keyPending)

/-! ## Illegal words -/

/-- R53, R105: executing a BAD word raises BadInstruction with the word, on the state as it was. -/
def Obligations.BadWordRaisesBadInstruction : Prop :=
  (∀ (w : Word) (s : State), ∃ t, exec (.bad w) s = .next t ∧ RaisedOn s (.badInstruction w) t) ∧
  (∀ (w : Word) (s : State), s.fault = none → s.waitKey = false → s.fetch = .ok w → isBadWord w = true →
    ∃ t, step s = .next t ∧ RaisedOn s (.badInstruction w) t ∧
      stepOutcome s = some (.faulted { kind := .badInstruction w, pc := s.pc }))
end

