-- ==== Sys2Proof/Laws/Decode.lean ====
section
/-! SUPPORT. The fields of a word and the words built from fields, as numbers and against each other: what the proofs about the
decoder and the encoder cite. -/

namespace Sys2Proof

/-! ## Fields as numbers -/

theorem opField_toNat (w : Word) : (opField w).toNat = w.toNat / 4096 := by
  have := w.isLt
  simp [opField, Nat.shiftRight_eq_div_pow]
  omega
theorem xField_toNat (w : Word) : (xField w).toNat = w.toNat / 256 % 16 := by
  simp [xField, Nat.shiftRight_eq_div_pow]
theorem yField_toNat (w : Word) : (yField w).toNat = w.toNat / 16 % 16 := by
  simp [yField, Nat.shiftRight_eq_div_pow]
theorem nField_toNat (w : Word) : (nField w).toNat = w.toNat % 16 := by simp [nField]
theorem nnField_toNat (w : Word) : (nnField w).toNat = w.toNat % 256 := by simp [nnField]
theorem nnnField_toNat (w : Word) : (nnnField w).toNat = w.toNat % 4096 := by simp [nnnField]

/-- An appended pair, as a number. -/
theorem append_toNat {m n : Nat} (a : BitVec m) (b : BitVec n) : (a ++ b).toNat = 2 ^ n * a.toNat + b.toNat := by
  rw [BitVec.toNat_append, ← Nat.shiftLeft_add_eq_or_of_lt b.isLt, Nat.shiftLeft_eq, Nat.mul_comm]

theorem wordXYN_toNat (op : Nibble) (x y : RegIdx) (n : Nibble) :
    (wordXYN op x y n).toNat = 4096 * op.toNat + 256 * x.toNat + 16 * y.toNat + n.toNat := by
  simp only [wordXYN, append_toNat]
  omega
theorem wordXNN_toNat (op : Nibble) (x : RegIdx) (nn : Byte) :
    (wordXNN op x nn).toNat = 4096 * op.toNat + 256 * x.toNat + nn.toNat := by
  simp only [wordXNN, append_toNat]
  omega
theorem wordNNN_toNat (op : Nibble) (nnn : Addr12) : (wordNNN op nnn).toNat = 4096 * op.toNat + nnn.toNat := by
  simp only [wordNNN, append_toNat]
  omega

/-! ## The fields of a word built from fields -/

variable (op n : Nibble) (x y : RegIdx) (nn : Byte) (nnn : Addr12)

@[simp] theorem opField_wordXYN : opField (wordXYN op x y n) = op := by
  apply BitVec.eq_of_toNat_eq; rw [opField_toNat, wordXYN_toNat]; omega
@[simp] theorem xField_wordXYN : xField (wordXYN op x y n) = x := by
  apply BitVec.eq_of_toNat_eq; rw [xField_toNat, wordXYN_toNat]; omega
@[simp] theorem yField_wordXYN : yField (wordXYN op x y n) = y := by
  apply BitVec.eq_of_toNat_eq; rw [yField_toNat, wordXYN_toNat]; omega
@[simp] theorem nField_wordXYN : nField (wordXYN op x y n) = n := by
  apply BitVec.eq_of_toNat_eq; rw [nField_toNat, wordXYN_toNat]; omega
@[simp] theorem opField_wordXNN : opField (wordXNN op x nn) = op := by
  apply BitVec.eq_of_toNat_eq; rw [opField_toNat, wordXNN_toNat]; omega
@[simp] theorem xField_wordXNN : xField (wordXNN op x nn) = x := by
  apply BitVec.eq_of_toNat_eq; rw [xField_toNat, wordXNN_toNat]; omega
@[simp] theorem nnField_wordXNN : nnField (wordXNN op x nn) = nn := by
  apply BitVec.eq_of_toNat_eq; rw [nnField_toNat, wordXNN_toNat]; omega
@[simp] theorem opField_wordNNN : opField (wordNNN op nnn) = op := by
  apply BitVec.eq_of_toNat_eq; rw [opField_toNat, wordNNN_toNat]; omega
@[simp] theorem nnnField_wordNNN : nnnField (wordNNN op nnn) = nnn := by
  apply BitVec.eq_of_toNat_eq; rw [nnnField_toNat, wordNNN_toNat]; omega
theorem xField_wordNNN : xField (wordNNN op nnn) = nnn.extractLsb' 8 4 := by
  apply BitVec.eq_of_toNat_eq
  rw [xField_toNat, wordNNN_toNat]
  simp [Nat.shiftRight_eq_div_pow]
  omega

/-! ## A word is its fields -/

variable (w : Word)

theorem wordXYN_fields : wordXYN (opField w) (xField w) (yField w) (nField w) = w := by
  apply BitVec.eq_of_toNat_eq
  rw [wordXYN_toNat, opField_toNat, xField_toNat, yField_toNat, nField_toNat]
  omega
theorem wordXNN_fields : wordXNN (opField w) (xField w) (nnField w) = w := by
  apply BitVec.eq_of_toNat_eq
  rw [wordXNN_toNat, opField_toNat, xField_toNat, nnField_toNat]
  omega
theorem wordNNN_fields : wordNNN (opField w) (nnnField w) = w := by
  apply BitVec.eq_of_toNat_eq
  rw [wordNNN_toNat, opField_toNat, nnnField_toNat]
  omega

/-- The two bytes a word is laid out in give the word back. -/
theorem decodeBytes_bytesOfWord (rest : List Byte) : decodeBytes (bytesOfWord w ++ rest) = .ok (decode w, rest) := by
  have e : wordOfBytes (w.extractLsb' 8 8) (w.extractLsb' 0 8) = w := by
    apply BitVec.eq_of_toNat_eq
    simp only [wordOfBytes, append_toNat, BitVec.extractLsb'_toNat, Nat.shiftRight_eq_div_pow]
    have := w.isLt
    omega
  simp [bytesOfWord, decodeBytes, e]

end Sys2Proof
end

