-- ==== Sys2Proof/Laws/State.lean ====
section
/-! SUPPORT. One lemma per field per update of the state, each true by rfl, so that no later proof unfolds a record update; and the
laws of a register read after a write. -/

namespace Sys2Proof.Machine

variable (s : State)

@[simp] theorem State.setReg_v (x : RegIdx) (b : Byte) : (s.setReg x b).v = s.v.set x.toNat b x.isLt := rfl
@[simp] theorem State.setReg_iReg (x : RegIdx) (b : Byte) : (s.setReg x b).iReg = s.iReg := rfl
@[simp] theorem State.setReg_pc (x : RegIdx) (b : Byte) : (s.setReg x b).pc = s.pc := rfl
@[simp] theorem State.setReg_stack (x : RegIdx) (b : Byte) : (s.setReg x b).stack = s.stack := rfl
@[simp] theorem State.setReg_sp (x : RegIdx) (b : Byte) : (s.setReg x b).sp = s.sp := rfl
@[simp] theorem State.setReg_dt (x : RegIdx) (b : Byte) : (s.setReg x b).dt = s.dt := rfl
@[simp] theorem State.setReg_st (x : RegIdx) (b : Byte) : (s.setReg x b).st = s.st := rfl
@[simp] theorem State.setReg_acc (x : RegIdx) (b : Byte) : (s.setReg x b).acc = s.acc := rfl
@[simp] theorem State.setReg_screen (x : RegIdx) (b : Byte) : (s.setReg x b).screen = s.screen := rfl
@[simp] theorem State.setReg_keys (x : RegIdx) (b : Byte) : (s.setReg x b).keys = s.keys := rfl
@[simp] theorem State.setReg_keyPrev (x : RegIdx) (b : Byte) : (s.setReg x b).keyPrev = s.keyPrev := rfl
@[simp] theorem State.setReg_waitKey (x : RegIdx) (b : Byte) : (s.setReg x b).waitKey = s.waitKey := rfl
@[simp] theorem State.setReg_waitReg (x : RegIdx) (b : Byte) : (s.setReg x b).waitReg = s.waitReg := rfl
@[simp] theorem State.setReg_mem (x : RegIdx) (b : Byte) : (s.setReg x b).mem = s.mem := rfl
@[simp] theorem State.setReg_fault (x : RegIdx) (b : Byte) : (s.setReg x b).fault = s.fault := rfl
@[simp] theorem State.setReg_cfg (x : RegIdx) (b : Byte) : (s.setReg x b).cfg = s.cfg := rfl
@[simp] theorem State.setReg_rndDraws (x : RegIdx) (b : Byte) : (s.setReg x b).rndDraws = s.rndDraws := rfl

@[simp] theorem State.advance_v : (s.advance).v = s.v := rfl
@[simp] theorem State.advance_iReg : (s.advance).iReg = s.iReg := rfl
@[simp] theorem State.advance_pc : (s.advance).pc = s.pc + 2 := rfl
@[simp] theorem State.advance_stack : (s.advance).stack = s.stack := rfl
@[simp] theorem State.advance_sp : (s.advance).sp = s.sp := rfl
@[simp] theorem State.advance_dt : (s.advance).dt = s.dt := rfl
@[simp] theorem State.advance_st : (s.advance).st = s.st := rfl
@[simp] theorem State.advance_acc : (s.advance).acc = s.acc := rfl
@[simp] theorem State.advance_screen : (s.advance).screen = s.screen := rfl
@[simp] theorem State.advance_keys : (s.advance).keys = s.keys := rfl
@[simp] theorem State.advance_keyPrev : (s.advance).keyPrev = s.keyPrev := rfl
@[simp] theorem State.advance_waitKey : (s.advance).waitKey = s.waitKey := rfl
@[simp] theorem State.advance_waitReg : (s.advance).waitReg = s.waitReg := rfl
@[simp] theorem State.advance_mem : (s.advance).mem = s.mem := rfl
@[simp] theorem State.advance_fault : (s.advance).fault = s.fault := rfl
@[simp] theorem State.advance_cfg : (s.advance).cfg = s.cfg := rfl
@[simp] theorem State.advance_rndDraws : (s.advance).rndDraws = s.rndDraws := rfl

@[simp] theorem State.skipIf_v (c : Bool) : (s.skipIf c).v = s.v := rfl
@[simp] theorem State.skipIf_iReg (c : Bool) : (s.skipIf c).iReg = s.iReg := rfl
@[simp] theorem State.skipIf_pc (c : Bool) : (s.skipIf c).pc = s.pc + (if c then 4 else 2) := rfl
@[simp] theorem State.skipIf_stack (c : Bool) : (s.skipIf c).stack = s.stack := rfl
@[simp] theorem State.skipIf_sp (c : Bool) : (s.skipIf c).sp = s.sp := rfl
@[simp] theorem State.skipIf_dt (c : Bool) : (s.skipIf c).dt = s.dt := rfl
@[simp] theorem State.skipIf_st (c : Bool) : (s.skipIf c).st = s.st := rfl
@[simp] theorem State.skipIf_acc (c : Bool) : (s.skipIf c).acc = s.acc := rfl
@[simp] theorem State.skipIf_screen (c : Bool) : (s.skipIf c).screen = s.screen := rfl
@[simp] theorem State.skipIf_keys (c : Bool) : (s.skipIf c).keys = s.keys := rfl
@[simp] theorem State.skipIf_keyPrev (c : Bool) : (s.skipIf c).keyPrev = s.keyPrev := rfl
@[simp] theorem State.skipIf_waitKey (c : Bool) : (s.skipIf c).waitKey = s.waitKey := rfl
@[simp] theorem State.skipIf_waitReg (c : Bool) : (s.skipIf c).waitReg = s.waitReg := rfl
@[simp] theorem State.skipIf_mem (c : Bool) : (s.skipIf c).mem = s.mem := rfl
@[simp] theorem State.skipIf_fault (c : Bool) : (s.skipIf c).fault = s.fault := rfl
@[simp] theorem State.skipIf_cfg (c : Bool) : (s.skipIf c).cfg = s.cfg := rfl
@[simp] theorem State.skipIf_rndDraws (c : Bool) : (s.skipIf c).rndDraws = s.rndDraws := rfl

@[simp] theorem State.jump_v (w : Word) : (s.jump w).v = s.v := rfl
@[simp] theorem State.jump_iReg (w : Word) : (s.jump w).iReg = s.iReg := rfl
@[simp] theorem State.jump_pc (w : Word) : (s.jump w).pc = w := rfl
@[simp] theorem State.jump_stack (w : Word) : (s.jump w).stack = s.stack := rfl
@[simp] theorem State.jump_sp (w : Word) : (s.jump w).sp = s.sp := rfl
@[simp] theorem State.jump_dt (w : Word) : (s.jump w).dt = s.dt := rfl
@[simp] theorem State.jump_st (w : Word) : (s.jump w).st = s.st := rfl
@[simp] theorem State.jump_acc (w : Word) : (s.jump w).acc = s.acc := rfl
@[simp] theorem State.jump_screen (w : Word) : (s.jump w).screen = s.screen := rfl
@[simp] theorem State.jump_keys (w : Word) : (s.jump w).keys = s.keys := rfl
@[simp] theorem State.jump_keyPrev (w : Word) : (s.jump w).keyPrev = s.keyPrev := rfl
@[simp] theorem State.jump_waitKey (w : Word) : (s.jump w).waitKey = s.waitKey := rfl
@[simp] theorem State.jump_waitReg (w : Word) : (s.jump w).waitReg = s.waitReg := rfl
@[simp] theorem State.jump_mem (w : Word) : (s.jump w).mem = s.mem := rfl
@[simp] theorem State.jump_fault (w : Word) : (s.jump w).fault = s.fault := rfl
@[simp] theorem State.jump_cfg (w : Word) : (s.jump w).cfg = s.cfg := rfl
@[simp] theorem State.jump_rndDraws (w : Word) : (s.jump w).rndDraws = s.rndDraws := rfl

@[simp] theorem State.raise_v (k : FaultKind) : (s.raise k).v = s.v := rfl
@[simp] theorem State.raise_iReg (k : FaultKind) : (s.raise k).iReg = s.iReg := rfl
@[simp] theorem State.raise_pc (k : FaultKind) : (s.raise k).pc = s.pc := rfl
@[simp] theorem State.raise_stack (k : FaultKind) : (s.raise k).stack = s.stack := rfl
@[simp] theorem State.raise_sp (k : FaultKind) : (s.raise k).sp = s.sp := rfl
@[simp] theorem State.raise_dt (k : FaultKind) : (s.raise k).dt = s.dt := rfl
@[simp] theorem State.raise_st (k : FaultKind) : (s.raise k).st = s.st := rfl
@[simp] theorem State.raise_acc (k : FaultKind) : (s.raise k).acc = s.acc := rfl
@[simp] theorem State.raise_screen (k : FaultKind) : (s.raise k).screen = s.screen := rfl
@[simp] theorem State.raise_keys (k : FaultKind) : (s.raise k).keys = s.keys := rfl
@[simp] theorem State.raise_keyPrev (k : FaultKind) : (s.raise k).keyPrev = s.keyPrev := rfl
@[simp] theorem State.raise_waitKey (k : FaultKind) : (s.raise k).waitKey = s.waitKey := rfl
@[simp] theorem State.raise_waitReg (k : FaultKind) : (s.raise k).waitReg = s.waitReg := rfl
@[simp] theorem State.raise_mem (k : FaultKind) : (s.raise k).mem = s.mem := rfl
@[simp] theorem State.raise_fault (k : FaultKind) : (s.raise k).fault = some { kind := k, pc := s.pc } := rfl
@[simp] theorem State.raise_cfg (k : FaultKind) : (s.raise k).cfg = s.cfg := rfl
@[simp] theorem State.raise_rndDraws (k : FaultKind) : (s.raise k).rndDraws = s.rndDraws := rfl

@[simp] theorem State.sampleKeys_v : (s.sampleKeys).v = s.v := rfl
@[simp] theorem State.sampleKeys_iReg : (s.sampleKeys).iReg = s.iReg := rfl
@[simp] theorem State.sampleKeys_pc : (s.sampleKeys).pc = s.pc := rfl
@[simp] theorem State.sampleKeys_stack : (s.sampleKeys).stack = s.stack := rfl
@[simp] theorem State.sampleKeys_sp : (s.sampleKeys).sp = s.sp := rfl
@[simp] theorem State.sampleKeys_dt : (s.sampleKeys).dt = s.dt := rfl
@[simp] theorem State.sampleKeys_st : (s.sampleKeys).st = s.st := rfl
@[simp] theorem State.sampleKeys_acc : (s.sampleKeys).acc = s.acc := rfl
@[simp] theorem State.sampleKeys_screen : (s.sampleKeys).screen = s.screen := rfl
@[simp] theorem State.sampleKeys_keys : (s.sampleKeys).keys = s.keys := rfl
@[simp] theorem State.sampleKeys_keyPrev : (s.sampleKeys).keyPrev = s.keys := rfl
@[simp] theorem State.sampleKeys_waitKey : (s.sampleKeys).waitKey = s.waitKey := rfl
@[simp] theorem State.sampleKeys_waitReg : (s.sampleKeys).waitReg = s.waitReg := rfl
@[simp] theorem State.sampleKeys_mem : (s.sampleKeys).mem = s.mem := rfl
@[simp] theorem State.sampleKeys_fault : (s.sampleKeys).fault = s.fault := rfl
@[simp] theorem State.sampleKeys_cfg : (s.sampleKeys).cfg = s.cfg := rfl
@[simp] theorem State.sampleKeys_rndDraws : (s.sampleKeys).rndDraws = s.rndDraws := rfl

@[simp] theorem State.setKeys_v (k : KeyLevels) : (s.setKeys k).v = s.v := rfl
@[simp] theorem State.setKeys_iReg (k : KeyLevels) : (s.setKeys k).iReg = s.iReg := rfl
@[simp] theorem State.setKeys_pc (k : KeyLevels) : (s.setKeys k).pc = s.pc := rfl
@[simp] theorem State.setKeys_stack (k : KeyLevels) : (s.setKeys k).stack = s.stack := rfl
@[simp] theorem State.setKeys_sp (k : KeyLevels) : (s.setKeys k).sp = s.sp := rfl
@[simp] theorem State.setKeys_dt (k : KeyLevels) : (s.setKeys k).dt = s.dt := rfl
@[simp] theorem State.setKeys_st (k : KeyLevels) : (s.setKeys k).st = s.st := rfl
@[simp] theorem State.setKeys_acc (k : KeyLevels) : (s.setKeys k).acc = s.acc := rfl
@[simp] theorem State.setKeys_screen (k : KeyLevels) : (s.setKeys k).screen = s.screen := rfl
@[simp] theorem State.setKeys_keys (k : KeyLevels) : (s.setKeys k).keys = k := rfl
@[simp] theorem State.setKeys_keyPrev (k : KeyLevels) : (s.setKeys k).keyPrev = s.keyPrev := rfl
@[simp] theorem State.setKeys_waitKey (k : KeyLevels) : (s.setKeys k).waitKey = s.waitKey := rfl
@[simp] theorem State.setKeys_waitReg (k : KeyLevels) : (s.setKeys k).waitReg = s.waitReg := rfl
@[simp] theorem State.setKeys_mem (k : KeyLevels) : (s.setKeys k).mem = s.mem := rfl
@[simp] theorem State.setKeys_fault (k : KeyLevels) : (s.setKeys k).fault = s.fault := rfl
@[simp] theorem State.setKeys_cfg (k : KeyLevels) : (s.setKeys k).cfg = s.cfg := rfl
@[simp] theorem State.setKeys_rndDraws (k : KeyLevels) : (s.setKeys k).rndDraws = s.rndDraws := rfl

@[simp] theorem State.tick_v : (s.tick).v = s.v := rfl
@[simp] theorem State.tick_iReg : (s.tick).iReg = s.iReg := rfl
@[simp] theorem State.tick_pc : (s.tick).pc = s.pc := rfl
@[simp] theorem State.tick_stack : (s.tick).stack = s.stack := rfl
@[simp] theorem State.tick_sp : (s.tick).sp = s.sp := rfl
@[simp] theorem State.tick_dt : (s.tick).dt = countDown s.dt := rfl
@[simp] theorem State.tick_st : (s.tick).st = countDown s.st := rfl
@[simp] theorem State.tick_acc : (s.tick).acc = s.acc := rfl
@[simp] theorem State.tick_screen : (s.tick).screen = s.screen := rfl
@[simp] theorem State.tick_keys : (s.tick).keys = s.keys := rfl
@[simp] theorem State.tick_keyPrev : (s.tick).keyPrev = s.keyPrev := rfl
@[simp] theorem State.tick_waitKey : (s.tick).waitKey = s.waitKey := rfl
@[simp] theorem State.tick_waitReg : (s.tick).waitReg = s.waitReg := rfl
@[simp] theorem State.tick_mem : (s.tick).mem = s.mem := rfl
@[simp] theorem State.tick_fault : (s.tick).fault = s.fault := rfl
@[simp] theorem State.tick_cfg : (s.tick).cfg = s.cfg := rfl
@[simp] theorem State.tick_rndDraws : (s.tick).rndDraws = s.rndDraws := rfl

@[simp] theorem State.setFlag_v (c : Bool) : (s.setFlag c).v = s.v.set 15 (flagByte c) := rfl
@[simp] theorem State.setFlag_iReg (c : Bool) : (s.setFlag c).iReg = s.iReg := rfl
@[simp] theorem State.setFlag_pc (c : Bool) : (s.setFlag c).pc = s.pc := rfl
@[simp] theorem State.setFlag_stack (c : Bool) : (s.setFlag c).stack = s.stack := rfl
@[simp] theorem State.setFlag_sp (c : Bool) : (s.setFlag c).sp = s.sp := rfl
@[simp] theorem State.setFlag_dt (c : Bool) : (s.setFlag c).dt = s.dt := rfl
@[simp] theorem State.setFlag_st (c : Bool) : (s.setFlag c).st = s.st := rfl
@[simp] theorem State.setFlag_acc (c : Bool) : (s.setFlag c).acc = s.acc := rfl
@[simp] theorem State.setFlag_screen (c : Bool) : (s.setFlag c).screen = s.screen := rfl
@[simp] theorem State.setFlag_keys (c : Bool) : (s.setFlag c).keys = s.keys := rfl
@[simp] theorem State.setFlag_keyPrev (c : Bool) : (s.setFlag c).keyPrev = s.keyPrev := rfl
@[simp] theorem State.setFlag_waitKey (c : Bool) : (s.setFlag c).waitKey = s.waitKey := rfl
@[simp] theorem State.setFlag_waitReg (c : Bool) : (s.setFlag c).waitReg = s.waitReg := rfl
@[simp] theorem State.setFlag_mem (c : Bool) : (s.setFlag c).mem = s.mem := rfl
@[simp] theorem State.setFlag_fault (c : Bool) : (s.setFlag c).fault = s.fault := rfl
@[simp] theorem State.setFlag_cfg (c : Bool) : (s.setFlag c).cfg = s.cfg := rfl
@[simp] theorem State.setFlag_rndDraws (c : Bool) : (s.setFlag c).rndDraws = s.rndDraws := rfl

@[simp] theorem State.bumpI_v (x : RegIdx) : (s.bumpI x).v = s.v := by
  unfold State.bumpI; split <;> rfl
theorem State.bumpI_iReg (x : RegIdx) : (s.bumpI x).iReg =
    if s.cfg.quirks.memory then s.iReg + BitVec.ofNat 16 (rangeCount x) else s.iReg := by
  unfold State.bumpI; split <;> rfl
@[simp] theorem State.bumpI_pc (x : RegIdx) : (s.bumpI x).pc = s.pc := by
  unfold State.bumpI; split <;> rfl
@[simp] theorem State.bumpI_stack (x : RegIdx) : (s.bumpI x).stack = s.stack := by
  unfold State.bumpI; split <;> rfl
@[simp] theorem State.bumpI_sp (x : RegIdx) : (s.bumpI x).sp = s.sp := by
  unfold State.bumpI; split <;> rfl
@[simp] theorem State.bumpI_dt (x : RegIdx) : (s.bumpI x).dt = s.dt := by
  unfold State.bumpI; split <;> rfl
@[simp] theorem State.bumpI_st (x : RegIdx) : (s.bumpI x).st = s.st := by
  unfold State.bumpI; split <;> rfl
@[simp] theorem State.bumpI_acc (x : RegIdx) : (s.bumpI x).acc = s.acc := by
  unfold State.bumpI; split <;> rfl
@[simp] theorem State.bumpI_screen (x : RegIdx) : (s.bumpI x).screen = s.screen := by
  unfold State.bumpI; split <;> rfl
@[simp] theorem State.bumpI_keys (x : RegIdx) : (s.bumpI x).keys = s.keys := by
  unfold State.bumpI; split <;> rfl
@[simp] theorem State.bumpI_keyPrev (x : RegIdx) : (s.bumpI x).keyPrev = s.keyPrev := by
  unfold State.bumpI; split <;> rfl
@[simp] theorem State.bumpI_waitKey (x : RegIdx) : (s.bumpI x).waitKey = s.waitKey := by
  unfold State.bumpI; split <;> rfl
@[simp] theorem State.bumpI_waitReg (x : RegIdx) : (s.bumpI x).waitReg = s.waitReg := by
  unfold State.bumpI; split <;> rfl
@[simp] theorem State.bumpI_mem (x : RegIdx) : (s.bumpI x).mem = s.mem := by
  unfold State.bumpI; split <;> rfl
@[simp] theorem State.bumpI_fault (x : RegIdx) : (s.bumpI x).fault = s.fault := by
  unfold State.bumpI; split <;> rfl
@[simp] theorem State.bumpI_cfg (x : RegIdx) : (s.bumpI x).cfg = s.cfg := by
  unfold State.bumpI; split <;> rfl
@[simp] theorem State.bumpI_rndDraws (x : RegIdx) : (s.bumpI x).rndDraws = s.rndDraws := by
  unfold State.bumpI; split <;> rfl
theorem State.bumpI_frame (x : RegIdx) : s.bumpI x = { s with iReg := (s.bumpI x).iReg } := by
  unfold State.bumpI; split <;> rfl

/-! Registers. -/

theorem State.reg_of_v_eq {s t : State} (h : t.v = s.v) (r : RegIdx) : t.reg r = s.reg r := by
  simp only [State.reg, h]

@[simp] theorem State.reg_setReg_same (x : RegIdx) (b : Byte) : (s.setReg x b).reg x = b := by
  simp [State.reg]

theorem State.reg_setReg_ne {x r : RegIdx} (h : r ≠ x) (b : Byte) : (s.setReg x b).reg r = s.reg r := by
  have h' : x.toNat ≠ r.toNat := fun e => h (BitVec.eq_of_toNat_eq e.symm)
  simp [State.reg, h']

theorem State.reg_setReg (x r : RegIdx) (b : Byte) :
    (s.setReg x b).reg r = if r = x then b else s.reg r := by
  split
  next h => subst h; simp
  next h => exact s.reg_setReg_ne h b

@[simp] theorem State.reg_advance (r : RegIdx) : s.advance.reg r = s.reg r := rfl
@[simp] theorem State.reg_skipIf (c : Bool) (r : RegIdx) : (s.skipIf c).reg r = s.reg r := rfl
@[simp] theorem State.reg_jump (w : Word) (r : RegIdx) : (s.jump w).reg r = s.reg r := rfl
@[simp] theorem State.reg_raise (k : FaultKind) (r : RegIdx) : (s.raise k).reg r = s.reg r := rfl
@[simp] theorem State.reg_bumpI (x r : RegIdx) : (s.bumpI x).reg r = s.reg r :=
  State.reg_of_v_eq (s.bumpI_v x) r

theorem State.reg_setFlag (c : Bool) (r : RegIdx) :
    (s.setFlag c).reg r = if r = 0xF then flagByte c else s.reg r := s.reg_setReg 0xF r _

/-- Two states that agree on every field are equal, with the registers read one by one. -/
theorem State.v_ext {s t : State} (h : ∀ r, t.reg r = s.reg r) : t.v = s.v := by
  apply Vector.ext
  intro i hi
  have := h (BitVec.ofNat 4 i)
  have e : i % 16 = i := Nat.mod_eq_of_lt hi
  simpa [State.reg, e] using this

/-- Writes to two registers commute. -/
theorem State.setReg_comm {x y : RegIdx} (h : x ≠ y) (a b : Byte) :
    (s.setReg x a).setReg y b = (s.setReg y b).setReg x a := by
  have h' : x.toNat ≠ y.toNat := fun e => h (BitVec.eq_of_toNat_eq e)
  simp only [State.setReg]
  rw [Vector.set_comm _ _ h']

end Sys2Proof.Machine
end

