-- ==== Sys2Proof/Laws/Memory.lean ====
section
/-! SUPPORT. Memory: a read after a write, the canonical form and that every operation keeps it, and what the checked accesses
can answer. -/

namespace Sys2Proof.Machine

/-! ## Reads and writes -/

@[simp] theorem Memory.read_nil (a : Nat) : Memory.read [] a = 0 := rfl

theorem Memory.read_erase (m : Memory) (a c : Nat) :
    (m.erase a).read c = if c = a then Memory.unlisted else m.read c := by
  induction m with
  | nil => simp [Memory.erase]
  | cons p rest ih =>
    obtain ⟨k, b⟩ := p
    simp only [Memory.erase] at ih ⊢
    by_cases hk : k = a
    · subst hk
      by_cases hc : c = k
      · simpa [hc] using ih
      · simpa [hc, Memory.read, show ¬ k = c from fun e => hc e.symm] using ih
    · by_cases hc : k = c
      · subst hc; simp [hk, Memory.read]
      · simpa [hk, hc, Memory.read] using ih

theorem Memory.read_insert {m : Memory} {a : Nat} (h : ∀ p ∈ m, p.1 ≠ a) (c : Nat) (b : Byte) :
    (m.insert a b).read c = if c = a then b else m.read c := by
  induction m with
  | nil =>
    by_cases hc : c = a
    · simp [Memory.insert, Memory.read, hc]
    · simp [Memory.insert, Memory.read, hc, show ¬ a = c from fun e => hc e.symm]
  | cons p rest ih =>
    obtain ⟨k, d⟩ := p
    have hk : k ≠ a := h (k, d) (by simp)
    have ih := ih fun q hq => h q (by simp [hq])
    simp only [Memory.insert]
    split
    next =>
      by_cases hc : c = a
      · simp [Memory.read, hc]
      · simp [Memory.read, hc, show ¬ a = c from fun e => hc e.symm]
    next =>
      simp only [Memory.read, ih]
      by_cases hc : k = c
      · subst hc; simp [hk]
      · simp [hc]

theorem Memory.erase_ne (m : Memory) (a : Nat) : ∀ p ∈ m.erase a, p.1 ≠ a := by
  intro p hp
  simpa using (List.mem_filter.mp hp).2

/-- A read after a write gives the byte written, and a write leaves every other address alone. -/
theorem Memory.read_write (m : Memory) (a c : Nat) (b : Byte) :
    (m.write a b).read c = if c = a then b else m.read c := by
  unfold Memory.write
  split
  next h => rw [Memory.read_erase, h]
  next => rw [Memory.read_insert (m.erase_ne a), Memory.read_erase]; split <;> rfl

/-! ## The canonical form -/

theorem Memory.read_of_lt {m : Memory} {lo a : Nat} (h : m.wfFrom lo = true) (ha : a < lo) : m.read a = Memory.unlisted := by
  induction m generalizing lo with
  | nil => rfl
  | cons p rest ih =>
    obtain ⟨k, b⟩ := p
    simp only [Memory.wfFrom, Bool.and_eq_true, decide_eq_true_eq] at h
    simp only [Memory.read]
    rw [if_neg (by omega)]
    exact ih h.2 (by omega)

theorem Memory.wfFrom_mono {m : Memory} {lo lo' : Nat} (h : m.wfFrom lo = true) (hl : lo' ≤ lo) :
    m.wfFrom lo' = true := by
  cases m with
  | nil => rfl
  | cons p rest =>
    obtain ⟨k, b⟩ := p
    simp only [Memory.wfFrom, Bool.and_eq_true, decide_eq_true_eq] at h ⊢
    exact ⟨⟨⟨by omega, h.1.1.2⟩, h.1.2⟩, h.2⟩

theorem Memory.wfFrom_erase {m : Memory} {lo : Nat} (h : m.wfFrom lo = true) (a : Nat) :
    (m.erase a).wfFrom lo = true := by
  induction m generalizing lo with
  | nil => rfl
  | cons p rest ih =>
    obtain ⟨k, d⟩ := p
    simp only [Memory.wfFrom, Bool.and_eq_true, decide_eq_true_eq] at h
    by_cases hk : k = a
    · have : Memory.erase ((k, d) :: rest) a = Memory.erase rest a := by simp [Memory.erase, hk]
      rw [this]
      exact Memory.wfFrom_mono (ih h.2) (by omega)
    · have : Memory.erase ((k, d) :: rest) a = (k, d) :: Memory.erase rest a := by simp [Memory.erase, hk]
      rw [this]
      simp only [Memory.wfFrom, Bool.and_eq_true, decide_eq_true_eq]
      exact ⟨h.1, ih h.2⟩

theorem Memory.wfFrom_insert {m : Memory} {lo a : Nat} {b : Byte} (h : m.wfFrom lo = true) (hfree : ∀ p ∈ m, p.1 ≠ a)
    (hlo : lo ≤ a) (ha : a ≤ 0xFFF) (hb : b ≠ Memory.unlisted) : (m.insert a b).wfFrom lo = true := by
  induction m generalizing lo with
  | nil =>
    simp only [Memory.insert, Memory.wfFrom, Bool.and_eq_true, decide_eq_true_eq]
    exact ⟨⟨⟨hlo, ha⟩, by simpa using hb⟩, trivial⟩
  | cons p rest ih =>
    obtain ⟨k, d⟩ := p
    have hk : k ≠ a := hfree (k, d) (by simp)
    simp only [Memory.wfFrom, Bool.and_eq_true, decide_eq_true_eq] at h
    simp only [Memory.insert]
    split
    next h1 =>
      simp only [Memory.wfFrom, Bool.and_eq_true, decide_eq_true_eq]
      exact ⟨⟨⟨hlo, ha⟩, by simpa using hb⟩, ⟨⟨by omega, h.1.1.2⟩, h.1.2⟩, h.2⟩
    next h1 =>
      simp only [Memory.wfFrom, Bool.and_eq_true, decide_eq_true_eq]
      exact ⟨h.1, ih h.2 (fun q hq => hfree q (by simp [hq])) (by omega)⟩

/-- A write inside the 4096 bytes keeps the canonical form. -/
theorem Memory.wf_write {m : Memory} (h : m.wf = true) {a : Nat} (ha : a ≤ 0xFFF) (b : Byte) :
    (m.write a b).wf = true := by
  unfold Memory.write
  split
  next => exact Memory.wfFrom_erase h a
  next hb => exact Memory.wfFrom_insert (Memory.wfFrom_erase h a) (m.erase_ne a) (Nat.zero_le a) ha hb

theorem Memory.wf_writeBytes {m : Memory} (h : m.wf = true) {a : Nat} {bs : List Byte} (ha : a + bs.length ≤ 4096) :
    (m.writeBytes a bs).wf = true := by
  induction bs generalizing m a with
  | nil => exact h
  | cons b bs ih =>
    simp only [List.length_cons] at ha
    exact ih (Memory.wf_write h (by omega) b) (by omega)

theorem Memory.wf_nil : Memory.wf [] = true := rfl

theorem State.reset_mem_wf : State.reset.mem.wf = true := rfl

/-- Canonical memories that read alike are the same data. -/
theorem Memory.ext_of_read {m n : Memory} {lo : Nat} (hm : m.wfFrom lo = true) (hn : n.wfFrom lo = true)
    (h : ∀ a, m.read a = n.read a) : m = n := by
  induction m generalizing n lo with
  | nil =>
    cases n with
    | nil => rfl
    | cons q rest' =>
      obtain ⟨k, b⟩ := q
      simp only [Memory.wfFrom, Bool.and_eq_true, decide_eq_true_eq] at hn
      have hk := h k
      simp [Memory.read] at hk
      simp [← hk] at hn
  | cons p rest ih =>
    obtain ⟨k, b⟩ := p
    simp only [Memory.wfFrom, Bool.and_eq_true, decide_eq_true_eq] at hm
    cases n with
    | nil =>
      have hk := h k
      simp [Memory.read] at hk
      simp [hk] at hm
    | cons q rest' =>
      obtain ⟨k', b'⟩ := q
      simp only [Memory.wfFrom, Bool.and_eq_true, decide_eq_true_eq] at hn
      have e : k = k' := by
        rcases Nat.lt_trichotomy k k' with hlt | heq | hgt
        · have hk := h k
          simp only [Memory.read, if_pos, if_neg (show ¬ k' = k by omega),
            Memory.read_of_lt hn.2 (show k < k' + 1 by omega)] at hk
          simp [hk] at hm
        · exact heq
        · have hk := h k'
          simp only [Memory.read, if_pos, if_neg (show ¬ k = k' by omega),
            Memory.read_of_lt hm.2 (show k' < k + 1 by omega)] at hk
          simp [← hk] at hn
      subst e
      have eb : b = b' := by simpa [Memory.read] using h k
      subst eb
      congr 1
      refine ih hm.2 hn.2 fun a => ?_
      by_cases ha : a = k
      · subst ha; rw [Memory.read_of_lt hm.2 (by omega), Memory.read_of_lt hn.2 (by omega)]
      · simpa [Memory.read, show ¬ k = a from fun e => ha e.symm] using h a

/-! ## Several bytes -/

/-- A byte of a written block reads as written, every other address as before. -/
theorem Memory.read_writeBytes (m : Memory) (a : Nat) (bs : List Byte) (c : Nat) :
    (m.writeBytes a bs).read c = if h : a ≤ c ∧ c - a < bs.length then bs[c - a] else m.read c := by
  induction bs generalizing m a with
  | nil => simp [Memory.writeBytes]
  | cons b bs ih =>
    simp only [Memory.writeBytes, ih, Memory.read_write, List.length_cons]
    rcases Nat.lt_trichotomy c a with h | h | h
    · rw [dif_neg (by omega), dif_neg (by omega), if_neg (by omega)]
    · subst h
      rw [dif_neg (by omega), dif_pos (by omega)]
      simp
    · obtain ⟨d, rfl⟩ : ∃ d, c = a + 1 + d := ⟨c - a - 1, by omega⟩
      have e1 : a + 1 + d - (a + 1) = d := by omega
      have e2 : a + 1 + d - a = d + 1 := by omega
      by_cases hd : d < bs.length
      · rw [dif_pos ⟨by omega, by omega⟩, dif_pos ⟨by omega, by omega⟩]
        simp only [e1, e2, List.getElem_cons_succ]
      · rw [dif_neg (by omega), dif_neg (by omega), if_neg (by omega)]

theorem Memory.read_writeBytes_outside (m : Memory) (a : Nat) (bs : List Byte) {c : Nat}
    (h : c < a ∨ a + bs.length ≤ c) : (m.writeBytes a bs).read c = m.read c := by
  rw [Memory.read_writeBytes, dif_neg (by omega)]

theorem Memory.read_writeBytes_inside (m : Memory) (a : Nat) (bs : List Byte) {k : Nat} (h : k < bs.length) :
    (m.writeBytes a bs).read (a + k) = bs[k] := by
  rw [Memory.read_writeBytes, dif_pos ⟨by omega, by omega⟩]
  congr 1
  omega

/-! ## The checked accesses: what each can answer -/

variable (s : State)

/-- `MemRead`: the byte, or AddressOverflow above 0xFFF. -/
theorem State.memRead_cases (a : Nat) :
    (a ≤ 0xFFF ∧ s.memRead a = .ok (s.mem.read a)) ∨ (0xFFF < a ∧ s.memRead a = .error (.addressOverflow a)) := by
  unfold State.memRead
  by_cases h : 0xFFF < a
  · exact .inr ⟨h, if_pos h⟩
  · exact .inl ⟨by omega, if_neg h⟩

theorem State.memRead_ok {a : Nat} (h : a ≤ 0xFFF) : s.memRead a = .ok (s.mem.read a) := if_neg (by omega)
theorem State.memRead_error {a : Nat} (h : 0xFFF < a) : s.memRead a = .error (.addressOverflow a) := if_pos h
theorem State.memWrite_ok {a : Nat} (h : a ≤ 0xFFF) (b : Byte) :
    s.memWrite a b = .ok { s with mem := s.mem.write a b } := if_neg (by omega)
theorem State.memWrite_error {a : Nat} (h : 0xFFF < a) (b : Byte) :
    s.memWrite a b = .error (.addressOverflow a) := if_pos h

/-- A load inside memory answers the bytes in ascending order. -/
theorem State.loadBytes_ok {a n : Nat} (h : n = 0 ∨ a + n ≤ 4096) :
    s.loadBytes a n = .ok ((List.range n).map fun k => s.mem.read (a + k)) := by
  induction n generalizing a with
  | zero => rfl
  | succ n ih =>
    simp only [State.loadBytes, s.memRead_ok (show a ≤ 0xFFF by omega), ih (a := a + 1) (by omega),
      List.range_succ_eq_map, List.map_cons, List.map_map, Nat.add_zero]
    congr 3
    funext k
    simp only [Function.comp, Nat.succ_eq_add_one]
    congr 1
    omega

/-- A load that leaves memory answers its first failing address. -/
theorem State.loadBytes_error {a n : Nat} (hn : 0 < n) (h : 4096 < a + n) :
    s.loadBytes a n = .error (.addressOverflow (max a 0x1000)) := by
  induction n generalizing a with
  | zero => omega
  | succ n ih =>
    simp only [State.loadBytes]
    rcases s.memRead_cases a with ⟨ha, hr⟩ | ⟨ha, hr⟩
    · rw [hr, ih (a := a + 1) (by omega) (by omega)]
      simp only [Except.error.injEq, FaultKind.addressOverflow.injEq]
      omega
    · rw [hr]
      simp only [Except.error.injEq, FaultKind.addressOverflow.injEq]
      omega

/-- A store inside memory writes the bytes and nothing else. -/
theorem State.storeBytes_ok {a : Nat} {bs : List Byte} (h : bs = [] ∨ a + bs.length ≤ 4096) :
    s.storeBytes a bs = .ok { s with mem := s.mem.writeBytes a bs } := by
  induction bs generalizing s a with
  | nil => rfl
  | cons b bs ih =>
    have hl : a + 1 + bs.length ≤ 4096 := by
      rcases h with h | h
      · cases h
      · simp only [List.length_cons] at h; omega
    simp only [State.storeBytes, s.memWrite_ok (show a ≤ 0xFFF by omega)]
    rw [ih _ (a := a + 1) (.inr hl)]
    rfl

/-- A store that leaves memory answers its first failing address, and no state. -/
theorem State.storeBytes_error {a : Nat} {bs : List Byte} (hn : 0 < bs.length) (h : 4096 < a + bs.length) :
    s.storeBytes a bs = .error (.addressOverflow (max a 0x1000)) := by
  induction bs generalizing s a with
  | nil => simp at hn
  | cons b bs ih =>
    simp only [List.length_cons] at h
    simp only [State.storeBytes]
    by_cases ha : 0xFFF < a
    · rw [s.memWrite_error ha]
      simp only [Except.error.injEq, FaultKind.addressOverflow.injEq]
      omega
    · rw [s.memWrite_ok (by omega)]
      simp only
      rw [ih _ (a := a + 1) (by omega) (by omega)]
      simp only [Except.error.injEq, FaultKind.addressOverflow.injEq]
      omega

/-- What a fetch answers: the word of the two bytes, or the first failing address. -/
theorem State.fetch_cases :
    (s.pc.toNat + 1 ≤ 0xFFF ∧
      s.fetch = .ok (wordOfBytes (s.mem.read s.pc.toNat) (s.mem.read (s.pc.toNat + 1)))) ∨
    (0xFFF < s.pc.toNat + 1 ∧ s.fetch = .error (.addressOverflow (max s.pc.toNat 0x1000))) := by
  unfold State.fetch
  by_cases h : 0xFFF < s.pc.toNat
  · refine .inr ⟨by omega, ?_⟩
    rw [s.memRead_error h]
    simp only [Except.error.injEq, FaultKind.addressOverflow.injEq]
    omega
  · rw [s.memRead_ok (by omega)]
    by_cases h' : 0xFFF < s.pc.toNat + 1
    · refine .inr ⟨h', ?_⟩
      simp only [s.memRead_error h', Except.error.injEq, FaultKind.addressOverflow.injEq]
      omega
    · exact .inl ⟨by omega, by simp only [s.memRead_ok (show s.pc.toNat + 1 ≤ 0xFFF by omega)]⟩

/-- The word of two bytes, as a number. -/
theorem wordOfBytes_eq (hi lo : Byte) : wordOfBytes hi lo = BitVec.ofNat 16 (256 * hi.toNat + lo.toNat) := by
  apply BitVec.eq_of_toNat_eq
  have h1 := hi.isLt
  have h2 := lo.isLt
  simp only [wordOfBytes, BitVec.toNat_append, BitVec.toNat_ofNat]
  rw [← Nat.shiftLeft_add_eq_or_of_lt h2, Nat.shiftLeft_eq]
  omega

/-- A store that completes keeps the canonical form. -/
theorem State.wf_storeBytes {s t : State} (h : s.mem.wf = true) {a : Nat} {bs : List Byte} (hs : s.storeBytes a bs = .ok t) :
    t.mem.wf = true := by
  induction bs generalizing s a with
  | nil => cases hs; exact h
  | cons b bs ih =>
    simp only [State.storeBytes] at hs
    rcases Nat.lt_or_ge 0xFFF a with ha | ha
    · rw [s.memWrite_error ha b] at hs; cases hs
    · rw [s.memWrite_ok ha b] at hs
      exact ih (s := { s with mem := s.mem.write a b }) (Memory.wf_write h ha b) hs

end Sys2Proof.Machine
end

