-- ==== Sys2Proof/Laws/Ops.lean ====
section
/-! SUPPORT. One lemma per shared operation saying everything it can do: the call stack, the register ranges, the key-wait poll, the timers,
what a step adds around an instruction, and the cases of a step. -/

namespace Sys2Proof.Machine

variable (s : State)

/-! ## The call stack -/

theorem State.push_ok (w : Word) (h : s.sp.val < 16) :
    s.push w = .ok { s with stack := s.stack.set s.sp.val w h, sp := ⟨s.sp.val + 1, Nat.succ_lt_succ h⟩ } :=
  dif_pos h

theorem State.push_error (w : Word) (h : s.sp.val = 16) : s.push w = .error .stackOverflow :=
  dif_neg (by omega)

theorem State.pop_ok {n : Nat} (hn : n < 16) (h : s.sp.val = n + 1) :
    s.pop = .ok (s.stack[n], { s with sp := ⟨n, by omega⟩ }) := by
  have e : s.sp = ⟨n + 1, by omega⟩ := Fin.ext h
  unfold State.pop
  split
  next h0 => rw [h0] at h; cases h
  next m hm h1 =>
    have : m = n := by rw [h1] at h; exact Nat.succ.inj h
    subst this
    rfl

theorem State.pop_error (h : s.sp.val = 0) : s.pop = .error .stackUnderflow := by
  unfold State.pop
  split
  next => rfl
  next m hm h1 => rw [h1] at h; cases h

/-! ## Register ranges -/

theorem State.length_regRange (x : RegIdx) : (s.regRange x).length = x.toNat + 1 := by
  have := x.isLt
  simp [State.regRange, rangeCount]
  omega

theorem State.getElem_regRange (x k : RegIdx) (h : k.toNat < (s.regRange x).length) :
    (s.regRange x)[k.toNat] = s.reg k := by
  simp [State.regRange, State.reg]

/-- Registers set from a list: the k-th byte lands in register `base + k`, every register outside keeps its value, and
nothing else changes. -/
theorem State.setRegsFrom_spec (bs : List Byte) (base : Nat) (hb : base + bs.length ≤ 16) :
    (∀ (r : RegIdx), (s.setRegsFrom base bs).reg r =
      if h : base ≤ r.toNat ∧ r.toNat - base < bs.length then bs[r.toNat - base] else s.reg r) ∧
    s.setRegsFrom base bs = { s with v := (s.setRegsFrom base bs).v } := by
  induction bs generalizing s base with
  | nil => exact ⟨fun r => by simp [State.setRegsFrom], rfl⟩
  | cons b bs ih =>
    simp only [List.length_cons] at hb
    obtain ⟨h1, h2⟩ := ih (s.setReg (BitVec.ofNat 4 base) b) (base + 1) (by omega)
    simp only [State.setRegsFrom]
    refine ⟨fun r => ?_, by rw [h2]; rfl⟩
    have hbase : (BitVec.ofNat 4 base).toNat = base := by
      simp only [BitVec.toNat_ofNat]; omega
    rw [h1, State.reg_setReg]
    simp only [List.length_cons]
    rcases Nat.lt_trichotomy r.toNat base with h | h | h
    · rw [dif_neg (by omega), dif_neg (by omega), if_neg]
      intro e; rw [e, hbase] at h; omega
    · rw [dif_neg (by omega), dif_pos (by omega), if_pos (BitVec.eq_of_toNat_eq (by rw [hbase, h]))]
      have : r.toNat - base = 0 := by omega
      simp [this]
    · by_cases hd : r.toNat - (base + 1) < bs.length
      · rw [dif_pos ⟨by omega, hd⟩, dif_pos ⟨by omega, by omega⟩]
        have : r.toNat - base = r.toNat - (base + 1) + 1 := by omega
        simp only [this, List.getElem_cons_succ]
      · rw [dif_neg (by omega), dif_neg (by omega), if_neg]
        intro e; rw [e, hbase] at h; omega

/-! ## Keys -/

theorem State.mem_freshKeys (k : Fin 16) : k ∈ s.freshKeys ↔ s.keys[k] = true ∧ s.keyPrev[k] = false := by
  simp [State.freshKeys, List.mem_filter]

/-- The poll: with no fresh key only the samples change; else the head of the fresh keys resolves the wait. -/
theorem State.keyWaitPoll_cases :
    (s.freshKeys = [] ∧ s.keyWaitPoll = s.sampleKeys) ∨
    (∃ k ks, s.freshKeys = k :: ks ∧
      s.keyWaitPoll = { s.sampleKeys.setReg s.waitReg (BitVec.ofNat 8 k.val) with waitKey := false }) := by
  unfold State.keyWaitPoll
  cases h : s.freshKeys with
  | nil => exact .inl ⟨rfl, rfl⟩
  | cons k ks => exact .inr ⟨k, ks, rfl, rfl⟩

/-- The fresh keys are listed in rising order, so the head is the lowest. -/
theorem State.freshKeys_pairwise : s.freshKeys.Pairwise (· < ·) :=
  (List.pairwise_lt_finRange 16).filter _

/-! ## Timers -/

theorem countDown_toNat (t : Byte) : (countDown t).toNat = t.toNat - 1 := by
  unfold countDown
  split
  next h => subst h; rfl
  next h =>
    have h0 : t.toNat ≠ 0 := fun e => h (BitVec.eq_of_toNat_eq e)
    have hlt := t.isLt
    rw [BitVec.toNat_sub]
    simp
    omega

/-- A poll below the period only accumulates; at or above it, it carries the excess and ticks once. -/
theorem State.timerPoll_cases (e : Nat) :
    (s.acc + e < s.cfg.timerPeriod ∧ s.timerPoll e = { s with acc := s.acc + e }) ∨
    (s.cfg.timerPeriod ≤ s.acc + e ∧
      s.timerPoll e = { s with acc := s.acc + e - s.cfg.timerPeriod, dt := countDown s.dt, st := countDown s.st }) := by
  unfold State.timerPoll
  by_cases h : s.cfg.timerPeriod ≤ s.acc + e
  · exact .inr ⟨h, if_pos h⟩
  · exact .inl ⟨by omega, if_neg h⟩

/-! ## The step -/

theorem retire_next (t : State) : retire (.next t) = .next (if t.fault = none then t.sampleKeys else t) := rfl

theorem step_of_fault (h : s.fault ≠ none) : step s = .next s := by
  unfold step
  rw [if_pos (Option.isSome_iff_ne_none.mpr h)]

theorem step_of_wait (h : s.fault = none) (hw : s.waitKey = true) : step s = .next s.keyWaitPoll := by
  simp [step, h, hw]

theorem step_of_fetch_error (h : s.fault = none) (hw : s.waitKey = false) {k : FaultKind} (hf : s.fetch = .error k) :
    step s = .next (s.raise k) := by
  simp [step, h, hw, hf]

theorem step_of_fetch_ok (h : s.fault = none) (hw : s.waitKey = false) {w : Word} (hf : s.fetch = .ok w) :
    step s = retire (exec (decode w) s) := by
  simp [step, h, hw, hf]

/-- Everything a step can do. -/
theorem step_cases :
    (s.fault ≠ none ∧ step s = .next s) ∨
    (s.fault = none ∧ s.waitKey = true ∧ step s = .next s.keyWaitPoll) ∨
    (∃ k, s.fault = none ∧ s.waitKey = false ∧ s.fetch = .error k ∧ step s = .next (s.raise k)) ∨
    (∃ w, s.fault = none ∧ s.waitKey = false ∧ s.fetch = .ok w ∧ step s = retire (exec (decode w) s)) := by
  by_cases h : s.fault = none
  · cases hw : s.waitKey with
    | true => exact .inr (.inl ⟨h, rfl, step_of_wait s h hw⟩)
    | false =>
      cases hf : s.fetch with
      | error k => exact .inr (.inr (.inl ⟨k, h, rfl, rfl, step_of_fetch_error s h hw hf⟩))
      | ok w => exact .inr (.inr (.inr ⟨w, h, rfl, rfl, step_of_fetch_ok s h hw hf⟩))
  · exact .inl ⟨h, step_of_fault s h⟩

end Sys2Proof.Machine
end

