-- ==== Sys2Proof/Laws/Flags.lean ====
section
/-! SUPPORT. What a result and its flag leave in the registers, and that nothing but the registers changes. -/

namespace Sys2Proof.Machine

variable (s : State)

/-- The flag is written last: VF ends as the flag, VX as the result unless it is VF, every other register is kept (R74). -/
theorem State.reg_aluWithFlag (op : AluOp) (x r : RegIdx) (a b : Byte) :
    (s.aluWithFlag op x a b).reg r =
      if r = 0xF then flagByte (aluFlag op a b) else if r = x then aluResult op a b else s.reg r := by
  simp only [State.aluWithFlag, State.writeBack, State.reg_setFlag, State.reg_setReg]

theorem State.aluWithFlag_frame (op : AluOp) (x : RegIdx) (a b : Byte) :
    s.aluWithFlag op x a b = { s with v := (s.aluWithFlag op x a b).v } := rfl

theorem State.reg_aluNoFlag (op : AluOp) (x r : RegIdx) (a b : Byte) :
    (s.aluNoFlag op x a b).reg r = if r = x then aluResult op a b else s.reg r := s.reg_setReg x r _

/-- The flag of a bitwise operation is 0. -/
theorem aluFlag_bitwise {op : AluOp} (h : op = .or ∨ op = .and ∨ op = .xor) (a b : Byte) : aluFlag op a b = false := by
  rcases h with rfl | rfl | rfl <;> rfl

theorem State.reg_bitwise (op : AluOp) (x y r : RegIdx) :
    (s.bitwise op x y).reg r =
      if s.cfg.quirks.vfReset = true ∧ r = 0xF then flagByte (aluFlag op (s.reg x) (s.reg y))
      else if r = x then aluResult op (s.reg x) (s.reg y) else s.reg r := by
  unfold State.bitwise
  by_cases h : s.cfg.quirks.vfReset = true
  · simp only [h, if_true, State.reg_setFlag, State.reg_setReg, true_and]
  · simp only [h, if_false, State.reg_setReg, false_and, Bool.false_eq_true]

theorem State.bitwise_frame (op : AluOp) (x y : RegIdx) :
    s.bitwise op x y = { s with v := (s.bitwise op x y).v } := by
  unfold State.bitwise
  by_cases h : s.cfg.quirks.vfReset = true
  · simp only [h, if_true]; rfl
  · simp only [h, if_false, Bool.false_eq_true]; rfl

theorem flagByte_true : flagByte true = 1 := rfl
theorem flagByte_false : flagByte false = 0 := rfl

end Sys2Proof.Machine
end

