-- ==== Sys2Proof/Laws/Screen.lean ====
section
/-! SUPPORT. The screen: a pixel after a toggle, which pixels a sprite lists, that it lists none twice, and what a blit of such a list does. -/

namespace Sys2Proof.Machine

theorem Screen.pixel_toggle (scr : Screen) (x px : Fin 64) (y py : Fin 32) :
    (scr.toggle x y).pixel px py = if px = x ∧ py = y then !scr.pixel x y else scr.pixel px py := by
  unfold Screen.toggle Screen.pixel
  by_cases hx : x = px
  · subst hx
    by_cases hy : y = py
    · subst hy; simp
    · have hy' : y.val ≠ py.val := fun e => hy (Fin.ext e)
      simp [hy', show ¬ py = y from fun e => hy e.symm]
  · have hx' : x.val ≠ px.val := fun e => hx (Fin.ext e)
    simp [hx', show ¬ px = x from fun e => hx e.symm]

theorem Screen.ext_pixel {a b : Screen} (h : ∀ x y, a.pixel x y = b.pixel x y) : a = b := by
  apply Vector.ext
  intro i hi
  apply Vector.ext
  intro j hj
  exact h ⟨i, hi⟩ ⟨j, hj⟩

theorem blankScreen_pixel (x : Fin 64) (y : Fin 32) : Screen.pixel blankScreen x y = false := by
  simp [Screen.pixel, blankScreen]

/-- A blit of pixels of which none is listed twice: each is toggled, no other is, and the collision is a pixel that was set. -/
theorem blit_spec (scr : Screen) (c : Bool) (ps : List (Fin 64 × Fin 32)) (h : ps.Nodup) :
    (∀ px py, (blit scr c ps).1.pixel px py = (scr.pixel px py ^^ decide ((px, py) ∈ ps))) ∧
    ((blit scr c ps).2 = (c || ps.any fun p => scr.pixel p.1 p.2)) := by
  induction ps generalizing scr c with
  | nil => simp [blit]
  | cons p ps ih =>
    obtain ⟨x, y⟩ := p
    obtain ⟨hp, hps⟩ := List.nodup_cons.mp h
    obtain ⟨h1, h2⟩ := ih (scr.toggle x y) (c || scr.pixel x y) hps
    constructor
    · intro px py
      simp only [blit, h1, Screen.pixel_toggle]
      by_cases e : px = x ∧ py = y
      · obtain ⟨rfl, rfl⟩ := e
        simp [hp]
      · have e' : (px, py) ≠ (x, y) := fun e0 => e (by simpa using e0)
        simp [e, e']
    · simp only [blit, h2, List.any_cons]
      rw [Bool.or_assoc]
      congr 2
      apply Bool.eq_iff_iff.mpr
      simp only [List.any_eq_true]
      refine exists_congr fun q => and_congr_right fun hq => ?_
      have : q ≠ (x, y) := fun e => hp (e ▸ hq)
      rw [Screen.pixel_toggle, if_neg]
      exact fun e => this (Prod.ext e.1 e.2)

/-- Where a bit lands, in arithmetic. -/
theorem placePixel_eq_some (clip : Bool) (a b : Nat) (px : Fin 64) (py : Fin 32) :
    placePixel clip a b = some (px, py) ↔
      (if clip then px.val = a ∧ py.val = b else px.val = a % 64 ∧ py.val = b % 32) := by
  have h1 := px.isLt
  have h2 := py.isLt
  cases clip with
  | true =>
    simp only [placePixel, if_true]
    split
    next h =>
      simp only [Option.some.injEq, Prod.mk.injEq, Fin.ext_iff]
      exact ⟨fun h => ⟨h.1.symm, h.2.symm⟩, fun h => ⟨h.1.symm, h.2.symm⟩⟩
    next h =>
      simp only [reduceCtorEq, false_iff]
      omega
  | false =>
    simp only [placePixel, Bool.false_eq_true, if_false, Option.some.injEq, Prod.mk.injEq, Fin.ext_iff, Fin.val_ofNat]
    exact ⟨fun h => ⟨h.1.symm, h.2.symm⟩, fun h => ⟨h.1.symm, h.2.symm⟩⟩

theorem mem_litColumns (row : Byte) (c : Nat) : c ∈ litColumns row ↔ c < 8 ∧ row.getLsbD (7 - c) = true := by
  simp [litColumns]

/-- The pixels of a sprite, in arithmetic: row r, column c of a 1 bit. -/
theorem mem_spritePixels (clip : Bool) (x0 y : Nat) (rows : List Byte) (px : Fin 64) (py : Fin 32) :
    (px, py) ∈ spritePixels clip x0 y rows ↔
      ∃ (r c : Nat) (h : r < rows.length), c < 8 ∧ (rows[r]).getLsbD (7 - c) = true ∧
        (if clip then px.val = x0 + c ∧ py.val = y + r else px.val = (x0 + c) % 64 ∧ py.val = (y + r) % 32) := by
  induction rows generalizing y with
  | nil => simp [spritePixels]
  | cons row rows ih =>
    simp only [spritePixels, List.mem_append, List.mem_filterMap, mem_litColumns, placePixel_eq_some, ih]
    constructor
    · rintro (⟨c, ⟨hc, hb⟩, hp⟩ | ⟨r, c, hr, hc, hb, hp⟩)
      · exact ⟨0, c, by simp, hc, by simpa using hb, by simpa using hp⟩
      · refine ⟨r + 1, c, by simpa using hr, hc, by simpa using hb, ?_⟩
        rw [show y + (r + 1) = y + 1 + r by omega]
        exact hp
    · rintro ⟨r, c, hr, hc, hb, hp⟩
      cases r with
      | zero => exact .inl ⟨c, ⟨hc, by simpa using hb⟩, by simpa using hp⟩
      | succ r =>
        refine .inr ⟨r, c, by simpa using hr, hc, by simpa using hb, ?_⟩
        rw [show y + 1 + r = y + (r + 1) by omega]
        exact hp

/-- A sprite at most 8 wide and 32 tall lists no pixel twice, wrapped or clipped (R98). -/
theorem spritePixels_nodup (clip : Bool) (x0 y : Nat) (rows : List Byte) (h : rows.length ≤ 32) :
    (spritePixels clip x0 y rows).Nodup := by
  induction rows generalizing y with
  | nil => exact List.nodup_nil
  | cons row rows ih =>
    simp only [List.length_cons] at h
    simp only [spritePixels]
    refine List.nodup_append.mpr ⟨?_, ih _ (by omega), ?_⟩
    · have hcols : (litColumns row).Pairwise (· ≠ ·) := List.nodup_range.filter _
      refine List.pairwise_filterMap.mpr (hcols.imp_of_mem ?_)
      rintro a b ha hb hab ⟨px, py⟩ hpa q hqb rfl
      rw [placePixel_eq_some] at hpa hqb
      have h1 := ((mem_litColumns row a).mp ha).1
      have h2 := ((mem_litColumns row b).mp hb).1
      cases clip <;> simp at hpa hqb <;> omega
    · rintro ⟨px, py⟩ hp q hq rfl
      rw [mem_spritePixels] at hq
      obtain ⟨c, hc, hpl⟩ := List.mem_filterMap.mp hp
      rw [placePixel_eq_some] at hpl
      obtain ⟨r, c', hr, -, -, hpl'⟩ := hq
      cases clip <;> simp at hpl hpl' <;> omega

end Sys2Proof.Machine
end

