-- ==== Sys2Proof/Laws/Exec.lean ====
section
/-! SUPPORT. For each instruction that can raise a fault: what its meaning answers where it completes, and what where it raises. Every other
meaning is one update and needs no lemma. -/

namespace Sys2Proof.Machine

variable (s : State)

theorem execRet_ok {n : Nat} (hn : n < 16) (h : s.sp.val = n + 1) :
    execRet s = .next { s with sp := ⟨n, by omega⟩, pc := s.stack[n] } := by
  simp only [execRet, s.pop_ok hn h, State.jump]

theorem execRet_raise (h : s.sp.val = 0) : execRet s = .next (s.raise .stackUnderflow) := by
  simp only [execRet, s.pop_error h]

theorem execCall_ok (nnn : Addr12) (h : s.sp.val < 16) :
    execCall nnn s = .next
      { s with
        stack := s.stack.set s.sp.val (s.pc + 2) h, sp := ⟨s.sp.val + 1, Nat.succ_lt_succ h⟩, pc := addrOperand nnn } := by
  simp only [execCall, s.push_ok _ h, State.jump]

theorem execCall_raise (nnn : Addr12) (h : s.sp.val = 16) : execCall nnn s = .next (s.raise .stackOverflow) := by
  simp only [execCall, s.push_error _ h]

theorem execLdF_ok (x : RegIdx) {base : Word} (h : s.cfg.fx29Policy = .font base) :
    execLdF x s = .next { s with iReg := glyphAddress base (s.reg x), pc := s.pc + 2 } := by
  simp only [execLdF, h, State.advance]

theorem execLdF_raise (x : RegIdx) (h : s.cfg.fx29Policy = .fault) :
    execLdF x s = .next (s.raise (.unimplemented (fx29Word x))) := by
  simp only [execLdF, h]

theorem length_bcdDigits (b : Byte) : (bcdDigits b).length = 3 := rfl

theorem execLdB_ok (x : RegIdx) (h : s.iReg.toNat + 2 ≤ 0xFFF) :
    execLdB x s = .next { s with mem := s.mem.writeBytes s.iReg.toNat (bcdDigits (s.reg x)), pc := s.pc + 2 } := by
  have e := s.storeBytes_ok (a := s.iReg.toNat) (bs := bcdDigits (s.reg x)) (.inr (by rw [length_bcdDigits]; omega))
  simp only [execLdB, e, State.advance]

theorem execLdB_raise (x : RegIdx) (h : 0xFFF < s.iReg.toNat + 2) :
    execLdB x s = .next (s.raise (.addressOverflow (max s.iReg.toNat 0x1000))) := by
  have e := s.storeBytes_error (a := s.iReg.toNat) (bs := bcdDigits (s.reg x)) (by rw [length_bcdDigits]; omega)
    (by rw [length_bcdDigits]; omega)
  simp only [execLdB, e]

theorem execStRegs_ok (x : RegIdx) (h : s.iReg.toNat + x.toNat ≤ 0xFFF) :
    execStRegs x s = .next
      { s with mem := s.mem.writeBytes s.iReg.toNat (s.regRange x), iReg := (s.bumpI x).iReg, pc := s.pc + 2 } := by
  have e := s.storeBytes_ok (a := s.iReg.toNat) (bs := s.regRange x) (.inr (by rw [s.length_regRange]; omega))
  simp only [execStRegs, e, State.advance]
  rw [State.bumpI_frame, State.bumpI_iReg, State.bumpI_iReg]

theorem execStRegs_raise (x : RegIdx) (h : 0xFFF < s.iReg.toNat + x.toNat) :
    execStRegs x s = .next (s.raise (.addressOverflow (max s.iReg.toNat 0x1000))) := by
  have e := s.storeBytes_error (a := s.iReg.toNat) (bs := s.regRange x) (by rw [s.length_regRange]; omega)
    (by rw [s.length_regRange]; omega)
  simp only [execStRegs, e]

/-- The registers LD Vx, [I] leaves: V0..VX from memory, the others as before. -/
theorem execLdRegs_ok (x : RegIdx) (h : s.iReg.toNat + x.toNat ≤ 0xFFF) :
    ∃ v, execLdRegs x s = .next { s with v := v, iReg := (s.bumpI x).iReg, pc := s.pc + 2 } ∧
      ∀ r : RegIdx, State.reg { s with v := v } r =
        if r.toNat ≤ x.toNat then s.mem.read (s.iReg.toNat + r.toNat) else s.reg r := by
  have hx := x.isLt
  obtain ⟨bs, hbs⟩ : ∃ bs, bs = (List.range (rangeCount x)).map fun k => s.mem.read (s.iReg.toNat + k) := ⟨_, rfl⟩
  have hlen : bs.length = x.toNat + 1 := by rw [hbs]; simp [rangeCount]
  have hget : ∀ (k : Nat) (hk : k < bs.length), bs[k] = s.mem.read (s.iReg.toNat + k) := by
    intro k hk; simp [hbs]
  obtain ⟨h1, h2⟩ := s.setRegsFrom_spec bs 0 (by omega)
  obtain ⟨v, hv⟩ : ∃ v, v = (s.setRegsFrom 0 bs).v := ⟨_, rfl⟩
  rw [← hv] at h2
  rw [h2] at h1
  refine ⟨v, ?_, fun r => ?_⟩
  · have e := s.loadBytes_ok (a := s.iReg.toNat) (n := rangeCount x) (.inr (by simp only [rangeCount]; omega))
    rw [← hbs] at e
    simp only [execLdRegs, e, State.advance, h2]
    rw [State.bumpI_frame, State.bumpI_iReg, State.bumpI_iReg]
  · rw [h1]
    by_cases hr : r.toNat ≤ x.toNat
    · rw [dif_pos (by omega), if_pos hr, hget]; rfl
    · rw [dif_neg (by omega), if_neg hr]

theorem execLdRegs_raise (x : RegIdx) (h : 0xFFF < s.iReg.toNat + x.toNat) :
    execLdRegs x s = .next (s.raise (.addressOverflow (max s.iReg.toNat 0x1000))) := by
  have e := s.loadBytes_error (a := s.iReg.toNat) (n := rangeCount x) (by simp only [rangeCount]; omega)
    (by simp only [rangeCount]; omega)
  simp only [execLdRegs, e]

theorem execDrw_ok (x y : RegIdx) (n : Nibble) (h : n.toNat = 0 ∨ s.iReg.toNat + n.toNat ≤ 4096) :
    execDrw x y n s = .next
      (State.setFlag
        { s with
          screen := (blit s.screen false
            (s.drawnPixels x y ((List.range n.toNat).map fun k => s.mem.read (s.iReg.toNat + k)))).1
          pc := s.pc + 2 }
        (blit s.screen false
          (s.drawnPixels x y ((List.range n.toNat).map fun k => s.mem.read (s.iReg.toNat + k)))).2) := by
  simp only [execDrw, s.loadBytes_ok h]
  rfl

theorem execDrw_raise (x y : RegIdx) (n : Nibble) (hn : 0 < n.toNat) (h : 4096 < s.iReg.toNat + n.toNat) :
    execDrw x y n s = .next (s.raise (.addressOverflow (max s.iReg.toNat 0x1000))) := by
  simp only [execDrw, s.loadBytes_error hn h]

theorem State.keyTest_ok {x : RegIdx} (h : (s.reg x).toNat < 16) : s.keyTest x = .ok (s.keys[(s.reg x).toNat]'h) :=
  dif_pos h

theorem State.keyTest_error {x : RegIdx} (h : 0xF < (s.reg x).toNat) :
    s.keyTest x = .error (.keyIndexOutOfRange (s.reg x)) := dif_neg (by omega)

theorem execSkp_ok {x : RegIdx} (h : (s.reg x).toNat < 16) :
    execSkp x s = .next (s.skipIf (s.keys[(s.reg x).toNat]'h)) := by
  simp only [execSkp, s.keyTest_ok h]

theorem execSkp_raise {x : RegIdx} (h : 0xF < (s.reg x).toNat) :
    execSkp x s = .next (s.raise (.keyIndexOutOfRange (s.reg x))) := by
  simp only [execSkp, s.keyTest_error h]

theorem execSknp_ok {x : RegIdx} (h : (s.reg x).toNat < 16) :
    execSknp x s = .next (s.skipIf (!s.keys[(s.reg x).toNat]'h)) := by
  simp only [execSknp, s.keyTest_ok h]

theorem execSknp_raise {x : RegIdx} (h : 0xF < (s.reg x).toNat) :
    execSknp x s = .next (s.raise (.keyIndexOutOfRange (s.reg x))) := by
  simp only [execSknp, s.keyTest_error h]

/-- The instruction `State.withFetchWord` places is the one the very next step runs. -/
theorem step_withFetchWord (w : Nat) (h : s.pc.toNat ≤ 0xFFE) :
    step (s.withFetchWord 16 w) = retire (exec (decode (BitVec.ofNat 16 w)) (s.withFetchWord 16 w)) := by
  refine step_of_fetch_ok _ rfl rfl ?_
  have e : BitVec.ofNat 16 (w % 2 ^ 16) = BitVec.ofNat 16 w := by
    apply BitVec.eq_of_toNat_eq; simp
  have hl : s.pc.toNat + (bytesOfWord (BitVec.ofNat 16 w)).length ≤ 4096 := by simp [bytesOfWord]; omega
  simp only [State.withFetchWord, State.placeAtPc, e, if_pos hl]
  rcases State.fetch_cases { s with
      fault := none, waitKey := false
      mem := s.mem.writeBytes s.pc.toNat (bytesOfWord (BitVec.ofNat 16 w)) } with ⟨h', f⟩ | ⟨h', f⟩
  · rw [f]
    simp only [Memory.read_writeBytes, bytesOfWord, List.length_cons, List.length_nil]
    simp
    generalize BitVec.ofNat 16 w = v
    apply BitVec.eq_of_toNat_eq
    simp only [wordOfBytes, BitVec.toNat_append, BitVec.extractLsb'_toNat]
    have := v.isLt
    rw [← Nat.shiftLeft_add_eq_or_of_lt (by simp; omega)]
    simp [Nat.shiftLeft_eq, Nat.shiftRight_eq_div_pow]
    omega
  · simp at h'; omega

end Sys2Proof.Machine
end

