-- ==== Sys2Proof/Laws/PerInstr.lean ====
section
/-! SUPPORT. Per instruction: the leading nibble of its word is its family's (spec/30_encoding.md R47, R49). -/

namespace Sys2Proof.Laws.LeadingNibble

/-- The family of each kind (R49); BAD has its word's own. -/
def family : Instr → Nibble
  | .sys _ => 0x0
  | .cls => 0x0
  | .ret => 0x0
  | .jp _ => 0x1
  | .call _ => 0x2
  | .seImm _ _ => 0x3
  | .sneImm _ _ => 0x4
  | .seReg _ _ => 0x5
  | .ldImm _ _ => 0x6
  | .addImm _ _ => 0x7
  | .ldReg _ _ => 0x8
  | .orReg _ _ => 0x8
  | .andReg _ _ => 0x8
  | .xorReg _ _ => 0x8
  | .addReg _ _ => 0x8
  | .sub _ _ => 0x8
  | .shr _ _ => 0x8
  | .subn _ _ => 0x8
  | .shl _ _ => 0x8
  | .sneReg _ _ => 0x9
  | .ldI _ => 0xA
  | .jpOff _ _ => 0xB
  | .rnd _ _ => 0xC
  | .drw _ _ _ => 0xD
  | .skp _ => 0xE
  | .sknp _ => 0xE
  | .ldVxDt _ => 0xF
  | .ldK _ => 0xF
  | .ldDt _ => 0xF
  | .ldSt _ => 0xF
  | .addI _ => 0xF
  | .ldF _ => 0xF
  | .ldB _ => 0xF
  | .stRegs _ => 0xF
  | .ldRegs _ => 0xF
  | .bad w => opField w

/-- The encoded word's leading nibble is the kind's family. -/
def Statement (i : Instr) : Prop := opField (encode i) = family i

theorem sys (nnn : Addr12) : Statement (.sys nnn) := opField_wordNNN ..
theorem cls : Statement .cls := by unfold Statement; decide
theorem ret : Statement .ret := by unfold Statement; decide
theorem jp (nnn : Addr12) : Statement (.jp nnn) := opField_wordNNN ..
theorem call (nnn : Addr12) : Statement (.call nnn) := opField_wordNNN ..
theorem seImm (x : RegIdx) (nn : Byte) : Statement (.seImm x nn) := opField_wordXNN ..
theorem sneImm (x : RegIdx) (nn : Byte) : Statement (.sneImm x nn) := opField_wordXNN ..
theorem seReg (x y : RegIdx) : Statement (.seReg x y) := opField_wordXYN ..
theorem ldImm (x : RegIdx) (nn : Byte) : Statement (.ldImm x nn) := opField_wordXNN ..
theorem addImm (x : RegIdx) (nn : Byte) : Statement (.addImm x nn) := opField_wordXNN ..
theorem ldReg (x y : RegIdx) : Statement (.ldReg x y) := opField_wordXYN ..
theorem orReg (x y : RegIdx) : Statement (.orReg x y) := opField_wordXYN ..
theorem andReg (x y : RegIdx) : Statement (.andReg x y) := opField_wordXYN ..
theorem xorReg (x y : RegIdx) : Statement (.xorReg x y) := opField_wordXYN ..
theorem addReg (x y : RegIdx) : Statement (.addReg x y) := opField_wordXYN ..
theorem sub (x y : RegIdx) : Statement (.sub x y) := opField_wordXYN ..
theorem shr (x y : RegIdx) : Statement (.shr x y) := opField_wordXYN ..
theorem subn (x y : RegIdx) : Statement (.subn x y) := opField_wordXYN ..
theorem shl (x y : RegIdx) : Statement (.shl x y) := opField_wordXYN ..
theorem sneReg (x y : RegIdx) : Statement (.sneReg x y) := opField_wordXYN ..
theorem ldI (nnn : Addr12) : Statement (.ldI nnn) := opField_wordNNN ..
theorem jpOff (x : RegIdx) (nnn : Addr12) : Statement (.jpOff x nnn) := opField_wordNNN ..
theorem rnd (x : RegIdx) (nn : Byte) : Statement (.rnd x nn) := opField_wordXNN ..
theorem drw (x y : RegIdx) (n : Nibble) : Statement (.drw x y n) := opField_wordXYN ..
theorem skp (x : RegIdx) : Statement (.skp x) := opField_wordXNN ..
theorem sknp (x : RegIdx) : Statement (.sknp x) := opField_wordXNN ..
theorem ldVxDt (x : RegIdx) : Statement (.ldVxDt x) := opField_wordXNN ..
theorem ldK (x : RegIdx) : Statement (.ldK x) := opField_wordXNN ..
theorem ldDt (x : RegIdx) : Statement (.ldDt x) := opField_wordXNN ..
theorem ldSt (x : RegIdx) : Statement (.ldSt x) := opField_wordXNN ..
theorem addI (x : RegIdx) : Statement (.addI x) := opField_wordXNN ..
theorem ldF (x : RegIdx) : Statement (.ldF x) := opField_wordXNN ..
theorem ldB (x : RegIdx) : Statement (.ldB x) := opField_wordXNN ..
theorem stRegs (x : RegIdx) : Statement (.stRegs x) := opField_wordXNN ..
theorem ldRegs (x : RegIdx) : Statement (.ldRegs x) := opField_wordXNN ..
theorem bad (w : Word) : Statement (.bad w) := rfl

end Sys2Proof.Laws.LeadingNibble
end

