-- ==== Sys2Proof/Machine/Asm.lean ====
section
/-! DEFINITION. The assembler syntax of spec/30_encoding.md R57: every descriptor spells exactly one line (R58). Hex digits are written as
spec/95_test_vectors.md writes them, in capitals (log 26). No step depends on this file. -/

namespace Sys2Proof.Machine

/-- One hex digit. -/
def hexDigit (d : Nibble) : String :=
  match d with
  | 0#4 => "0" | 1#4 => "1" | 2#4 => "2" | 3#4 => "3"
  | 4#4 => "4" | 5#4 => "5" | 6#4 => "6" | 7#4 => "7"
  | 8#4 => "8" | 9#4 => "9" | 10#4 => "A" | 11#4 => "B"
  | 12#4 => "C" | 13#4 => "D" | 14#4 => "E" | _ => "F"

/-- `Vx`. -/
def asmReg (x : RegIdx) : String := "V" ++ hexDigit x
/-- `nn`. -/
def asmByte (b : Byte) : String := hexDigit (b.extractLsb' 4 4) ++ hexDigit (b.extractLsb' 0 4)
/-- `nnn`. -/
def asmAddr (a : Addr12) : String := hexDigit (a.extractLsb' 8 4) ++ asmByte (a.extractLsb' 0 8)
/-- `wwww`. -/
def asmWord (w : Word) : String := asmByte (w.extractLsb' 8 8) ++ asmByte (w.extractLsb' 0 8)

/-- `op Vx, nn`. -/
def asmXNN (op : String) (x : RegIdx) (nn : Byte) : String := op ++ " " ++ asmReg x ++ ", " ++ asmByte nn
/-- `op Vx, Vy`. -/
def asmXY (op : String) (x y : RegIdx) : String := op ++ " " ++ asmReg x ++ ", " ++ asmReg y

/-- The line of a descriptor (R57). -/
def Instr.asm : Instr → String
  | .sys nnn => "SYS " ++ asmAddr nnn
  | .cls => "CLS"
  | .ret => "RET"
  | .jp nnn => "JP " ++ asmAddr nnn
  | .call nnn => "CALL " ++ asmAddr nnn
  | .seImm x nn => asmXNN "SE" x nn
  | .sneImm x nn => asmXNN "SNE" x nn
  | .seReg x y => asmXY "SE" x y
  | .ldImm x nn => asmXNN "LD" x nn
  | .addImm x nn => asmXNN "ADD" x nn
  | .ldReg x y => asmXY "LD" x y
  | .orReg x y => asmXY "OR" x y
  | .andReg x y => asmXY "AND" x y
  | .xorReg x y => asmXY "XOR" x y
  | .addReg x y => asmXY "ADD" x y
  | .sub x y => asmXY "SUB" x y
  | .shr x y => asmXY "SHR" x y
  | .subn x y => asmXY "SUBN" x y
  | .shl x y => asmXY "SHL" x y
  | .sneReg x y => asmXY "SNE" x y
  | .ldI nnn => "LD I, " ++ asmAddr nnn
  | .jpOff _ nnn => "JP V0, " ++ asmAddr nnn
  | .rnd x nn => asmXNN "RND" x nn
  | .drw x y n => asmXY "DRW" x y ++ ", " ++ hexDigit n
  | .skp x => "SKP " ++ asmReg x
  | .sknp x => "SKNP " ++ asmReg x
  | .ldVxDt x => "LD " ++ asmReg x ++ ", DT"
  | .ldK x => "LD " ++ asmReg x ++ ", K"
  | .ldDt x => "LD DT, " ++ asmReg x
  | .ldSt x => "LD ST, " ++ asmReg x
  | .addI x => "ADD I, " ++ asmReg x
  | .ldF x => "LD F, " ++ asmReg x
  | .ldB x => "LD B, " ++ asmReg x
  | .stRegs x => "LD [I], " ++ asmReg x
  | .ldRegs x => "LD " ++ asmReg x ++ ", [I]"
  | .bad w => "BAD 0x" ++ asmWord w

end Sys2Proof.Machine
end

