-- ==== Sys2Proof/Tests/Slice0.lean ====
section
/-! SUPPORT. Small checks of the model against the spec's own vectors (spec/95_test_vectors.md, cited by number), the ill-formed
descriptors, one decoded word per constructor, and for each statement with hypotheses a state and operands that meet them
(`witness_<name>`). -/

namespace Sys2Proof.Tests

open Sys2Proof Sys2Proof.Machine

/-! ## Helpers -/

/-- A next state with a property. -/
def holds (r : Result) (p : State → Bool) : Bool :=
  match r with
  | .next t => p t
  | .fault _ => false
  | .refused _ => false

/-- The reset state with other quirks. -/
def withQuirks (q : Quirks) (s : State) : State := { s with cfg := { s.cfg with quirks := q } }

/-- Every quirk off, and every quirk on. -/
def allOff : Quirks := Quirks.ofBits 0
def allOn : Quirks := Quirks.ofBits 63

/-- The reset state with some registers set. -/
def regs : List (RegIdx × Byte) → State → State
  | [], s => s
  | (x, b) :: rest, s => regs rest (s.setReg x b)

/-- The reset state with bytes stored. -/
def stored (a : Nat) (bs : List Byte) (s : State) : State := { s with mem := s.mem.writeBytes a bs }

/-- The reset state at a pc. -/
def atPc (pc : Word) (s : State) : State := { s with pc := pc }

/-- The reset state with I. -/
def withI (i : Word) (s : State) : State := { s with iReg := i }

/-- The reset state with some keys pressed. -/
def pressed (ks : List (Fin 16)) : KeyLevels := Vector.ofFn fun k => decide (k ∈ ks)

/-- The fault record of a state is this one. -/
def faultIs (k : FaultKind) (pc : Word) (t : State) : Bool := t.fault == some { kind := k, pc := pc }

def r0 : State := State.reset

/-! ## Ill-formed descriptors, one for each check of `Instr.wellFormed` -/

theorem test_sys_cls_word_ill_formed : (Instr.sys 0x0E0).wellFormed = false := by decide
theorem test_sys_ret_word_ill_formed : (Instr.sys 0x0EE).wellFormed = false := by decide
theorem test_jpOff_wrong_x_ill_formed : (Instr.jpOff 0x2 0x310).wellFormed = false := by decide
theorem test_bad_of_a_valid_word_ill_formed : (Instr.bad 0x8127).wellFormed = false := by decide
theorem test_bad_of_family5_well_formed : (Instr.bad 0x5121).wellFormed = true := by decide
theorem test_bad_of_family9_well_formed : (Instr.bad 0x9121).wellFormed = true := by decide

/-! ## One word per constructor (R49; 95 table 2.1 where it lists the word) -/

theorem test_decode_sys : decode 0x00E1 = .sys 0x0E1 := by decide
theorem test_decode_cls : decode 0x00E0 = .cls := by decide
theorem test_decode_ret : decode 0x00EE = .ret := by decide
theorem test_decode_jp : decode 0x1ABC = .jp 0xABC := by decide
theorem test_decode_call : decode 0x2300 = .call 0x300 := by decide
theorem test_decode_seImm : decode 0x3310 = .seImm 0x3 0x10 := by decide
theorem test_decode_sneImm : decode 0x4311 = .sneImm 0x3 0x11 := by decide
theorem test_decode_seReg : decode 0x5120 = .seReg 0x1 0x2 := by decide
theorem test_decode_ldImm : decode 0x6A05 = .ldImm 0xA 0x05 := by decide
theorem test_decode_addImm : decode 0x7A01 = .addImm 0xA 0x01 := by decide
theorem test_decode_ldReg : decode 0x8120 = .ldReg 0x1 0x2 := by decide
theorem test_decode_orReg : decode 0x8121 = .orReg 0x1 0x2 := by decide
theorem test_decode_andReg : decode 0x8122 = .andReg 0x1 0x2 := by decide
theorem test_decode_xorReg : decode 0x8123 = .xorReg 0x1 0x2 := by decide
theorem test_decode_addReg : decode 0x8014 = .addReg 0x0 0x1 := by decide
theorem test_decode_sub : decode 0x8F15 = .sub 0xF 0x1 := by decide
theorem test_decode_shr : decode 0x8126 = .shr 0x1 0x2 := by decide
theorem test_decode_subn : decode 0x8127 = .subn 0x1 0x2 := by decide
theorem test_decode_shl : decode 0x812E = .shl 0x1 0x2 := by decide
theorem test_decode_sneReg : decode 0x9120 = .sneReg 0x1 0x2 := by decide
theorem test_decode_ldI : decode 0xA300 = .ldI 0x300 := by decide
theorem test_decode_jpOff : decode 0xBFFF = .jpOff 0xF 0xFFF := by decide
theorem test_decode_rnd : decode 0xC10F = .rnd 0x1 0x0F := by decide
theorem test_decode_drw : decode 0xD012 = .drw 0x0 0x1 0x2 := by decide
theorem test_decode_skp : decode 0xE19E = .skp 0x1 := by decide
theorem test_decode_sknp : decode 0xE1A1 = .sknp 0x1 := by decide
theorem test_decode_ldVxDt : decode 0xF507 = .ldVxDt 0x5 := by decide
theorem test_decode_ldK : decode 0xF20A = .ldK 0x2 := by decide
theorem test_decode_ldDt : decode 0xF515 = .ldDt 0x5 := by decide
theorem test_decode_ldSt : decode 0xF018 = .ldSt 0x0 := by decide
theorem test_decode_addI : decode 0xF21E = .addI 0x2 := by decide
theorem test_decode_ldF : decode 0xF129 = .ldF 0x1 := by decide
theorem test_decode_ldB : decode 0xF033 = .ldB 0x0 := by decide
theorem test_decode_stRegs : decode 0xF155 = .stRegs 0x1 := by decide
theorem test_decode_ldRegs : decode 0xF265 = .ldRegs 0x2 := by decide
theorem test_decode_bad8 : decode 0x812F = .bad 0x812F := by decide
theorem test_decode_badE : decode 0xE19F = .bad 0xE19F := by decide
theorem test_decode_badF : decode 0xF130 = .bad 0xF130 := by decide

theorem test_decodeBytes_leaves_the_rest :
    decodeBytes [0x12, 0x34, 0x56] = .ok (.jp 0x234, [0x56]) := by decide
theorem test_decodeBytes_one_byte : decodeBytes [0x12] = .error .oneByte := by decide
theorem test_table_word : decodeTableWord 16 0xF155 = some (.stRegs 1) := by decide
theorem test_placed_word_runs_first :
    holds (step (State.reset.withFetchWord 16 0x6A05)) (fun t => t.reg 0xA == 0x05 && t.pc == 0x202) = true := by decide
theorem test_placed_word_high_byte_first :
    (State.reset.withFetchWord 16 0x6A05).mem = [(0x200, 0x6A), (0x201, 0x05)] := by decide

/-! ## Control flow (95 table 2.2) -/

theorem test_CF1_sys : holds (exec (.sys 0x123) r0) (fun t => decide (t = { r0 with pc := 0x202 })) = true := by decide
theorem test_CF2_jp : holds (exec (.jp 0xABC) r0) (fun t => t.pc == 0xABC) = true := by decide
theorem test_CF4_call :
    holds (exec (.call 0x300) r0) (fun t => t.stack[0] == 0x202 && t.sp == 1 && t.pc == 0x300) = true := by decide
theorem test_CF7_call_overflow :
    holds (exec (.call 0x300) { r0 with sp := 16 }) (faultIs .stackOverflow 0x200) = true := by decide
theorem test_CF5_ret :
    holds (exec .ret { r0 with sp := 1, stack := r0.stack.set 0 0x202 }) (fun t => t.pc == 0x202 && t.sp == 0) = true := by
  decide
theorem test_CF6_ret_underflow : holds (exec .ret r0) (faultIs .stackUnderflow 0x200) = true := by decide
theorem test_CF8_se_skips : holds (exec (.seImm 3 0x10) (regs [(3, 0x10)] r0)) (fun t => t.pc == 0x204) = true := by decide
theorem test_CF9_se_does_not :
    holds (exec (.seImm 3 0x11) (regs [(3, 0x10)] r0)) (fun t => t.pc == 0x202) = true := by decide
theorem test_CF10_sne_skips :
    holds (exec (.sneImm 3 0x11) (regs [(3, 0x10)] r0)) (fun t => t.pc == 0x204) = true := by decide
theorem test_CF11_sne_does_not :
    holds (exec (.sneImm 3 0x10) (regs [(3, 0x10)] r0)) (fun t => t.pc == 0x202) = true := by decide
theorem test_CF13_seReg_does_not :
    holds (exec (.seReg 1 2) (regs [(1, 7), (2, 8)] r0)) (fun t => t.pc == 0x202) = true := by decide
theorem test_CF14_seReg_same_register : holds (exec (.seReg 1 1) r0) (fun t => t.pc == 0x204) = true := by decide
theorem test_CF15_sneReg_skips :
    holds (exec (.sneReg 1 2) (regs [(1, 7), (2, 8)] r0)) (fun t => t.pc == 0x204) = true := by decide
theorem test_CF16_sneReg_same_register : holds (exec (.sneReg 1 1) r0) (fun t => t.pc == 0x202) = true := by decide
theorem test_CF18_jpOff_jumping :
    holds (exec (.jpOff 3 0x310) (withQuirks allOn (regs [(3, 5), (0, 0x10)] r0))) (fun t => t.pc == 0x315) = true := by
  decide
theorem test_CF19_jpOff_past_memory :
    holds (exec (.jpOff 0xF 0xFFF) (regs [(0, 0xFF)] r0)) (fun t => t.pc == 0x10FE) = true := by decide

/-! ## ALU (95 table 2.3) -/

theorem test_ALU34_ldImm : holds (exec (.ldImm 0xA 0x05) r0) (fun t => t.reg 0xA == 0x05) = true := by decide
theorem test_ALU36_addImm_no_flag :
    holds (exec (.addImm 1 1) (regs [(1, 0xFF), (0xF, 7)] r0)) (fun t => t.reg 1 == 0 && t.reg 0xF == 7) = true := by decide
theorem test_ALU37_addImm_into_vf :
    holds (exec (.addImm 0xF 0xFF) (regs [(0xF, 1)] r0)) (fun t => t.reg 0xF == 0) = true := by decide
theorem test_ALU24_ldReg :
    holds (exec (.ldReg 0 1) (regs [(1, 0x42), (0xF, 5)] r0)) (fun t => t.reg 0 == 0x42 && t.reg 0xF == 5) = true := by
  decide
theorem test_ALU14_or_keeps_vf :
    holds (exec (.orReg 0 1) (withQuirks allOff (regs [(0, 0x0F), (1, 0xF0), (0xF, 5)] r0)))
      (fun t => t.reg 0 == 0xFF && t.reg 0xF == 5) = true := by decide
theorem test_ALU29_or_into_vf_resets :
    holds (exec (.orReg 0xF 0) (withQuirks allOn (regs [(0xF, 0x10), (0, 1)] r0))) (fun t => t.reg 0xF == 0) = true := by
  decide
theorem test_ALU15_and :
    holds (exec (.andReg 0 1) (withQuirks allOff (regs [(0, 0x0F), (1, 0x3C), (0xF, 5)] r0)))
      (fun t => t.reg 0 == 0x0C && t.reg 0xF == 5) = true := by decide
theorem test_ALU16_xor :
    holds (exec (.xorReg 0 1) (withQuirks allOn (regs [(0, 0x0F), (1, 0x3C), (0xF, 5)] r0)))
      (fun t => t.reg 0 == 0x33 && t.reg 0xF == 0) = true := by decide
theorem test_ALU25_add_vf_to_itself :
    holds (exec (.addReg 0xF 0xF) (regs [(0xF, 0x80)] r0)) (fun t => t.reg 0xF == 1) = true := by decide
theorem test_ALU28_add_old_vf :
    holds (exec (.addReg 0 0xF) (regs [(0, 1), (0xF, 0xFF)] r0)) (fun t => t.reg 0 == 0 && t.reg 0xF == 1) = true := by
  decide
theorem test_ALU7_sub_borrows :
    holds (exec (.sub 0 1) (regs [(0, 3), (1, 5)] r0)) (fun t => t.reg 0 == 0xFE && t.reg 0xF == 0) = true := by decide
theorem test_ALU8_sub_equal :
    holds (exec (.sub 0 1) (regs [(0, 7), (1, 7)] r0)) (fun t => t.reg 0 == 0 && t.reg 0xF == 1) = true := by decide
theorem test_ALU10_subn :
    holds (exec (.subn 0 1) (regs [(0, 3), (1, 5)] r0)) (fun t => t.reg 0 == 2 && t.reg 0xF == 1) = true := by decide
theorem test_ALU11_subn_borrows :
    holds (exec (.subn 0 1) (regs [(0, 5), (1, 3)] r0)) (fun t => t.reg 0 == 0xFE && t.reg 0xF == 0) = true := by decide
theorem test_ALU17_shr_from_vy :
    holds (exec (.shr 0 1) (withQuirks allOff (regs [(1, 3)] r0))) (fun t => t.reg 0 == 1 && t.reg 0xF == 1) = true := by
  decide
theorem test_ALU27_shr_vf_in_place :
    holds (exec (.shr 0xF 0) (withQuirks allOn (regs [(0xF, 2)] r0))) (fun t => t.reg 0xF == 0) = true := by decide
theorem test_ALU21_shl_in_place :
    holds (exec (.shl 0 1) (withQuirks allOn (regs [(0, 0x81)] r0))) (fun t => t.reg 0 == 2 && t.reg 0xF == 1) = true := by
  decide
theorem test_ALU22_shl_from_vy :
    holds (exec (.shl 0 1) (withQuirks allOff (regs [(1, 0xC0)] r0)))
      (fun t => t.reg 0 == 0x80 && t.reg 0xF == 1) = true := by decide

/-! ## Index register and memory (95 table 2.4) -/

theorem test_MEM1_ldI : holds (exec (.ldI 0x300) r0) (fun t => t.iReg == 0x300) = true := by decide
theorem test_MEM2_addI_past_memory :
    holds (exec (.addI 2) (withI 0xFFF (regs [(2, 1)] r0)))
      (fun t => t.iReg == 0x1000 && t.reg 0xF == 0 && t.fault == none) = true := by decide
theorem test_MEM3_addI_wraps :
    holds (exec (.addI 2) (withI 0xFFFF (regs [(2, 1)] r0))) (fun t => t.iReg == 0) = true := by decide
theorem test_MEM9_bcd_at_the_top :
    holds (exec (.ldB 0) (withI 0xFFD (regs [(0, 0xFF)] r0)))
      (fun t => t.mem == [(0xFFD, 2), (0xFFE, 5), (0xFFF, 5)] && t.iReg == 0xFFD) = true := by decide
theorem test_MEM10_bcd_past_the_top :
    holds (exec (.ldB 0) (withI 0xFFE (regs [(0, 0xFF)] r0)))
      (fun t => faultIs (.addressOverflow 0x1000) 0x200 t && t.mem == []) = true := by decide
theorem test_MEM11_dump_advances_i :
    holds (exec (.stRegs 1) (withQuirks allOn (withI 0x300 (regs [(0, 1), (1, 2)] r0))))
      (fun t => t.mem == [(0x300, 1), (0x301, 2)] && t.iReg == 0x302) = true := by decide
theorem test_MEM16_dump_past_the_top :
    holds (exec (.stRegs 3) (withI 0xFFE (regs [(0, 1)] r0)))
      (fun t => faultIs (.addressOverflow 0x1000) 0x200 t && t.mem == [] && t.pc == 0x200) = true := by decide
theorem test_MEM18_load_keeps_i :
    holds (exec (.ldRegs 2) (withQuirks allOff (withI 0x300 (stored 0x300 [2, 5, 4] r0))))
      (fun t => t.reg 0 == 2 && t.reg 1 == 5 && t.reg 2 == 4 && t.iReg == 0x300) = true := by decide
theorem test_MEM19_load_into_vf :
    holds (exec (.ldRegs 0xF) (withI 0x300 (stored 0x30F [0xAB] r0))) (fun t => t.reg 0xF == 0xAB) = true := by decide
theorem test_MEM21_sprite_address_faults :
    holds (exec (.ldF 3) (regs [(3, 0x0A)] r0)) (faultIs (.unimplemented 0xF329) 0x200) = true := by decide
theorem test_MEM23_sprite_address_low_nibble :
    holds (exec (.ldF 3) (regs [(3, 0x1F)] { r0 with cfg := { r0.cfg with fx29Policy := .font 0x050 } }))
      (fun t => t.iReg == 0x9B) = true := by decide

/-! ## Timers (95 table 2.5) -/

theorem test_TMR1_ldDt : holds (exec (.ldDt 5) (regs [(5, 2)] r0)) (fun t => t.dt == 2) = true := by decide
theorem test_TMR2_ldVxDt : holds (exec (.ldVxDt 5) { r0 with dt := 0x3C }) (fun t => t.reg 5 == 0x3C) = true := by decide
theorem test_TMR3_ldSt : holds (exec (.ldSt 0) (regs [(0, 5)] r0)) (fun t => t.stOut == 5) = true := by decide

/-- The start of TMR5 and TMR6: P = 100, acc = 0, DT = 05. -/
def polled : State := { r0 with dt := 5, cfg := { r0.cfg with timerPeriod := 100 } }

theorem test_TMR5_polls : ((runPolls polled [60, 60, 250, 10, 10]).2.acc, (runPolls polled [60, 60, 250, 10, 10]).2.dt,
    (runPolls polled [60, 60, 250, 10, 10]).1) = (90, 2, 3) := by decide
theorem test_TMR6_polls : ((runPolls polled [350, 0, 0, 0]).2.acc, (runPolls polled [350, 0, 0, 0]).2.dt) = (50, 2) := by decide
theorem test_TMR4_tick_saturates : ({ r0 with dt := 0, st := 1 }.tick.dt, { r0 with dt := 0, st := 1 }.tick.st) = (0, 0) := by
  decide

/-! ## Screen, random, keys (95 table 2.6) -/

/-- The pixels that are set, column by column. -/
def setPixels (t : State) : List (Nat × Nat) :=
  (List.finRange 64).flatMap fun x => ((List.finRange 32).filter fun y => t.screen.pixel x y).map fun y => (x.val, y.val)

/-- A screen with one pixel set. -/
def dotted (x : Fin 64) (y : Fin 32) (s : State) : State := { s with screen := s.screen.toggle x y }

theorem test_KEY1_cls : holds (exec .cls (dotted 5 6 (regs [(0xF, 7)] r0)))
    (fun t => t.screen == blankScreen && t.reg 0xF == 7) = true := by decide
theorem test_KEY6_draw_wraps :
    holds (exec (.drw 0 1 1) (withQuirks allOff (withI 0x300 (stored 0x300 [0xF0] (regs [(0, 62)] r0)))))
      (fun t => setPixels t == [(0, 0), (1, 0), (62, 0), (63, 0)] && t.reg 0xF == 0) = true := by decide
theorem test_KEY12_draw_origin_from_old_vf :
    holds (exec (.drw 0xF 0 1) (withI 0x300 (stored 0x300 [0x80] (dotted 5 0 (regs [(0xF, 5)] r0)))))
      (fun t => setPixels t == [] && t.reg 0xF == 1) = true := by decide
theorem test_KEY13_random_masked : (r0.randomInto 1 0x0F 0xB7).reg 1 = 0x07 := by decide
theorem test_KEY14_random_mask_zero : ∃ t, exec (.rnd 1 0) r0 = .next t ∧ t.reg 1 = 0 := by
  refine ⟨_, rfl, ?_⟩
  show Config.rndIn 0 &&& 0#8 = 0#8
  exact BitVec.and_zero
theorem test_KEY15_skp : holds (exec (.skp 5) { regs [(5, 5)] r0 with keys := pressed [5] }) (fun t => t.pc == 0x204) = true := by
  decide
theorem test_KEY18_skp_index :
    holds (exec (.skp 5) (regs [(5, 0x10)] r0)) (faultIs (.keyIndexOutOfRange 0x10) 0x200) = true := by decide
theorem test_KEY17_sknp : holds (exec (.sknp 5) (regs [(5, 5)] r0)) (fun t => t.pc == 0x204) = true := by decide
theorem test_KEY19_ldK :
    holds (exec (.ldK 2) (atPc 0x300 r0)) (fun t => t.waitKey && t.waitReg == 2 && t.pc == 0x302 && t.reg 2 == 0) = true := by
  decide

/-- A core waiting for a key for V2, with keys now and keys at the last sample. -/
def waiting (now before : List (Fin 16)) : State :=
  { r0 with waitKey := true, waitReg := 2, keys := pressed now, keyPrev := pressed before }

theorem test_KEY21_held_key_is_no_press :
    holds (step (waiting [3] [3])) (fun t => decide (t = waiting [3] [3])) = true := by decide
theorem test_KEY22_lowest_fresh_key :
    holds (step (waiting [9, 4] [])) (fun t => t.reg 2 == 4 && !t.waitKey && t.pc == 0x200) = true := by decide

/-! ## The step, the faults, reset, the assembler, the configuration -/

theorem test_FLT1_bad_word :
    holds (step (r0.withFetchWord 16 0x5121))
      (fun t => decide (t = { r0.withFetchWord 16 0x5121 with fault := some ⟨.badInstruction 0x5121, 0x200⟩ })) = true := by
  decide
theorem test_FLT5_fetch_past_memory : holds (step (atPc 0xFFF r0)) (faultIs (.addressOverflow 0x1000) 0xFFF) = true := by decide
theorem test_CF23_odd_pc : (atPc 0x201 (stored 0x201 [0x12, 0x01] r0)).fetch.toOption = some 0x1201 := by decide
theorem test_fault_codes : ([FaultKind.badInstruction 0, .stackOverflow, .stackUnderflow, .addressOverflow 0,
    .keyIndexOutOfRange 0, .unimplemented 0].map FaultKind.code) = [1, 2, 3, 4, 5, 6] := by decide
theorem test_create_refuses_period_zero :
    create [1] 0xFFF 0 { resetConfig with timerPeriod := 0 } = .refused .zeroTimerPeriod := rfl
theorem test_create_refuses : create [1] 0x1000 0 resetConfig = .refused .imageDoesNotFit := rfl
theorem test_asm_draw : Instr.asm (decode 0xD011) = "DRW V0, V1, 1" := by decide
theorem test_asm_bad : Instr.asm (decode 0x5121) = "BAD 0x5121" := by decide
theorem test_quirk_bits : Quirks.chip8.toBits = 0b001111#6 := by decide
theorem test_quirk_round_trip : ∀ b : BitVec 6, (Quirks.ofBits b).toBits = b := by decide
theorem test_font_size : standardFont.length = 80 := by decide

/-! ## Witnesses: for each statement with hypotheses, a state and operands that meet them all, one for each clause at its boundary -/

/-- The reset state with one word at pc. -/
def running (w : Nat) : State := r0.withFetchWord 16 w

/-- A state with the fault FLT1 latches. -/
def faulted : State := { r0 with fault := some ⟨.badInstruction 0x5121, 0x200⟩ }

theorem witness_DecodeOfEncodeIsTheInstruction :
    (Instr.sys 0x123).wellFormed = true ∧ (Instr.jpOff 0x3 0x310).wellFormed = true ∧
    (Instr.bad 0xFFFF).wellFormed = true := by decide

theorem witness_FetchReadsBigEndianOrFaults :
    (atPc 0xFFE r0).pc.toNat + 1 ≤ 0xFFF ∧ (atPc 0xFFF r0).pc.toNat = 0xFFF ∧ 0xFFF < (atPc 0x1000 r0).pc.toNat := by decide

theorem witness_MemoryAccessIsCheckedNeverWrapped : 0xFFF < (0x1000 : Nat) ∧ (0xFFF : Nat) ≤ 0xFFF := by decide

theorem witness_StoredBytesAreFetchedNext :
    (1 : RegIdx) ≠ 0 ∧ (withI 0xFFE (atPc 0xFFC r0)).iReg.toNat = (withI 0xFFE (atPc 0xFFC r0)).pc.toNat + 2 ∧
    (withI 0xFFE (atPc 0xFFC r0)).iReg.toNat + (1 : RegIdx).toNat ≤ 0xFFF := by decide

theorem witness_StepRunsTheDecodedInstruction :
    ∃ t, (running 0x6A05).fault = none ∧ (running 0x6A05).waitKey = false ∧ (running 0x6A05).pc.toNat + 1 ≤ 0xFFF ∧
      decode (BitVec.ofNat 16 (256 * ((running 0x6A05).mem.read (running 0x6A05).pc.toNat).toNat +
        ((running 0x6A05).mem.read ((running 0x6A05).pc.toNat + 1)).toNat)) = .ldImm 0xA 5 ∧
      exec (.ldImm 0xA 5) (running 0x6A05) = .next t := ⟨_, rfl, rfl, by decide, by decide, rfl⟩

theorem witness_StepDoesExactlyOneThing :
    faulted.fault ≠ none ∧ ((waiting [1] []).fault = none ∧ (waiting [1] []).waitKey = true) ∧
    ((atPc 0xFFF r0).fault = none ∧ (atPc 0xFFF r0).waitKey = false ∧
      (atPc 0xFFF r0).fetch = .error (.addressOverflow 0x1000)) ∧
    ((running 0x00EE).fault = none ∧ (running 0x00EE).waitKey = false ∧ (running 0x00EE).fetch = .ok 0x00EE) :=
  ⟨by decide, ⟨rfl, rfl⟩, ⟨rfl, rfl, rfl⟩, ⟨rfl, rfl, rfl⟩⟩

theorem witness_FaultedCoreStaysHalted :
    faulted.fault = some ⟨.badInstruction 0x5121, 0x200⟩ ∧
    ∃ t, runEvents [.step, .timerPoll 7, .setKeys (pressed [1])] faulted = .next t := ⟨rfl, _, rfl⟩

theorem witness_FaultsArePrecise :
    ∃ t, (running 0x00EE).fault = none ∧ step (running 0x00EE) = .next t ∧
      t.fault = some ⟨.stackUnderflow, 0x200⟩ := ⟨_, rfl, rfl, rfl⟩

theorem witness_EachKindRaisesItsOwnFaultOnly :
    r0.fault = none ∧ mayRaise .ret r0 .stackUnderflow ∧ ¬ mayRaise (.call 0x300) r0 .stackOverflow :=
  ⟨rfl, ⟨rfl, rfl⟩, fun h => absurd h.2 (by decide)⟩

theorem inv_reset : Inv r0 := ⟨rfl, by decide, fun _ h => by cases h⟩

theorem witness_StepKeepsTheInvariant : ∃ t, Inv r0 ∧ step r0 = .next t := ⟨_, inv_reset, rfl⟩

theorem witness_EventsInAnyOrderKeepTheInvariant :
    ∃ t, Inv r0 ∧ runEvents [.setKeys (pressed [3]), .step, .timerPoll 1000000] r0 = .next t := ⟨_, inv_reset, rfl⟩

theorem witness_CreateMeetsTheInvariant : ∃ s, create [0x12, 0x00] 0x200 0x200 resetConfig = .next s := ⟨_, rfl⟩

/-- The image one byte too long, the image that ends with memory at a period of 0 and at a period of 1, and the empty image at
the end of memory. -/
theorem witness_CreateLeavesTheResetState :
    4096 < (0xFFF : Word).toNat + [1, 2].length ∧ (0xFFF : Word).toNat + [1].length ≤ 4096 ∧
    (0x1000 : Word).toNat + ([] : List Nat).length ≤ 4096 ∧ ({ resetConfig with timerPeriod := 0 } : Config).timerPeriod = 0 ∧
    0 < ({ resetConfig with timerPeriod := 1 } : Config).timerPeriod := by decide

theorem witness_ConfigurationNeverChanges :
    ∃ t, runEvents [.step, .setKeys (pressed [3]), .timerPoll 5] r0 = .next t := ⟨_, rfl⟩

theorem witness_DisplayWaitHasNoEffect : ∃ t, exec (.drw 0 1 0) r0 = .next t := ⟨_, rfl⟩

theorem witness_InstructionsIgnoreTheDivider : ∃ t, exec (.ldVxDt 5) r0 = .next t := ⟨_, rfl⟩

theorem witness_OnlyTheHostWritesKeys : ∃ t, step (waiting [1] []) = .next t := ⟨_, rfl⟩

theorem witness_KeysAreSampledByStepsThatRetireOrPoll :
    (∃ t, step { r0 with keys := pressed [3] } = .next t ∧ t.fault = none) ∧
    (∃ t, step { running 0xFFFF with keys := pressed [3] } = .next t ∧ t.fault ≠ none) :=
  ⟨⟨_, rfl, rfl⟩, ⟨_, rfl, by decide⟩⟩

/-- Every clause's condition holds for some instruction: a draw writes no memory and VF alone of the registers, a dump writes
X + 1 bytes, and a skip, a plain advance and an instruction that raises nothing each occur. -/
theorem witness_InstructionsWriteOnlyWhatTheirControlWordSays :
    (∃ t, exec (.drw 0 1 0) r0 = .next t ∧ t.fault = none) ∧
    Instr.mayWriteReg (.drw 0 1 0) 0 = false ∧ (Instr.controlWord (.drw 0 1 0)).i = .never ∧
    (Instr.controlWord (.drw 0 1 0)).memory = .read 0 ∧ (Instr.controlWord (.stRegs 2)).memory = .write 3 ∧
    (Instr.controlWord (.drw 0 1 0)).stack = .none ∧ (Instr.controlWord .ret).stack ≠ .push ∧
    (Instr.controlWord .ret).unit = .none ∧ ReadPort.rndIn ∉ (Instr.controlWord .ret).reads ∧
    (Instr.controlWord (.drw 0 1 0)).pc = .plus2 ∧ (Instr.controlWord (.ldF 1)).pc = .plus2OrFault ∧
    (Instr.controlWord (.skp 1)).pc = .skip :=
  ⟨⟨_, rfl, rfl⟩, by decide⟩

theorem witness_RegistersNotReadHaveNoInfluence :
    ∃ t, Instr.readsReg (.addReg 1 2) 3 = false ∧ Instr.mayWriteReg (.addReg 1 2) 3 = false ∧
      exec (.addReg 1 2) r0 = .next t := ⟨_, rfl, rfl, rfl⟩

theorem witness_SysOnlyAdvancesPc :
    (0x0FFF : Word).toNat < 0x1000 ∧ (0x0FFF : Word) ≠ 0x00E0 ∧ (0x0FFF : Word) ≠ 0x00EE := by decide

theorem witness_RetPopsOrUnderflows :
    ({ r0 with sp := 1 } : State).sp.val = (0 : Fin 16).val + 1 ∧ ({ r0 with sp := 16 } : State).sp.val = (15 : Fin 16).val + 1 ∧
    r0.sp.val = 0 := by decide

theorem witness_CallPushesAndJumpsOrOverflows :
    r0.sp.val = (0 : Fin 16).val ∧ ({ r0 with sp := 15 } : State).sp.val = (15 : Fin 16).val ∧
    ({ r0 with sp := 16 } : State).sp.val = 16 := by decide

theorem witness_ReturnGoesBackPastTheCall :
    ∃ t u, r0.sp.val < 16 ∧ exec (.call 0x300) r0 = .next t ∧ exec .ret t = .next u := ⟨_, _, by decide, rfl, rfl⟩

theorem witness_SkipsAdvanceByFourOrTwo : r0.reg 3 = 0 ∧ r0.reg 3 ≠ 0x10 ∧ r0.reg 1 = r0.reg 2 ∧
    (regs [(1, 7)] r0).reg 1 ≠ (regs [(1, 7)] r0).reg 2 := by decide

theorem witness_JumpWithOffsetAddsTheQuirkRegister :
    (withQuirks allOff r0).cfg.quirks.jumping = false ∧ (withQuirks allOn r0).cfg.quirks.jumping = true := by decide

/-- CF19, and JP FFF, whose fetch fails on its second byte. -/
theorem witness_BadTargetFaultsAtTheNextFetch :
    (∃ t, (regs [(0, 0xFF)] (running 0xBFFF)).fault = none ∧ (regs [(0, 0xFF)] (running 0xBFFF)).waitKey = false ∧
      (regs [(0, 0xFF)] (running 0xBFFF)).fetch = .ok 0xBFFF ∧ (Instr.controlWord (decode 0xBFFF)).pc = .target ∧
      step (regs [(0, 0xFF)] (running 0xBFFF)) = .next t ∧ t.fault = none ∧ 0xFFE < t.pc.toNat) ∧
    (∃ t, (running 0x1FFF).fetch = .ok 0x1FFF ∧ (Instr.controlWord (decode 0x1FFF)).pc = .target ∧
      step (running 0x1FFF) = .next t ∧ t.fault = none ∧ 0xFFE < t.pc.toNat) :=
  ⟨⟨_, rfl, rfl, rfl, rfl, rfl, rfl, by decide⟩, ⟨_, rfl, rfl, rfl, rfl, by decide⟩⟩

theorem witness_SelfJumpRetiresAgain : AtSelfJump (running 0x1200) := ⟨rfl, rfl, 0x200, rfl, rfl⟩

theorem witness_BitwiseResultsAndTheResetFlag :
    ((Instr.orReg 0xF 1 = .orReg 0xF 1 ∧ r0.reg 0xF = r0.reg 0xF ||| r0.reg 1) ∨
      (Instr.orReg 0xF 1 = .andReg 0xF 1 ∧ r0.reg 0xF = r0.reg 0xF &&& r0.reg 1) ∨
      (Instr.orReg 0xF 1 = .xorReg 0xF 1 ∧ r0.reg 0xF = r0.reg 0xF ^^^ r0.reg 1)) ∧
    (withQuirks allOn r0).cfg.quirks.vfReset = true ∧ (withQuirks allOff r0).cfg.quirks.vfReset = false := by decide

/-- The sums 255 and 256 on either side of the carry. -/
theorem witness_AddSetsVxAndCarry :
    255 < ((regs [(0, 0xFF), (1, 1)] r0).reg 0).toNat + ((regs [(0, 0xFF), (1, 1)] r0).reg 1).toNat ∧
    ((regs [(0, 0xFE), (1, 1)] r0).reg 0).toNat + ((regs [(0, 0xFE), (1, 1)] r0).reg 1).toNat ≤ 255 ∧
    (0 : RegIdx) ≠ 0xF := by decide

theorem witness_SubSetsVxAndNoBorrow :
    ((regs [(1, 1)] r0).reg 0).toNat < ((regs [(1, 1)] r0).reg 1).toNat ∧ (r0.reg 1).toNat ≤ (r0.reg 0).toNat := by decide

theorem witness_SubnSetsVxAndNoBorrow :
    ((regs [(0, 1)] r0).reg 1).toNat < ((regs [(0, 1)] r0).reg 0).toNat ∧ (r0.reg 0).toNat ≤ (r0.reg 1).toNat := by decide

theorem witness_ShiftsMoveOneBitIntoVf :
    (0x81 : Byte) = (if (withQuirks allOn (regs [(0, 0x81), (1, 2)] r0)).cfg.quirks.shifting
      then (withQuirks allOn (regs [(0, 0x81), (1, 2)] r0)).reg 0 else (withQuirks allOn (regs [(0, 0x81), (1, 2)] r0)).reg 1) ∧
    (0x02 : Byte) = (if (withQuirks allOff (regs [(0, 0x81), (1, 2)] r0)).cfg.quirks.shifting
      then (withQuirks allOff (regs [(0, 0x81), (1, 2)] r0)).reg 0 else (withQuirks allOff (regs [(0, 0x81), (1, 2)] r0)).reg 1) := by
  decide

theorem witness_SpriteAddressFollowsThePolicy :
    ({ r0 with cfg := { r0.cfg with fx29Policy := .font 0x050 } } : State).cfg.fx29Policy = .font 0x050 ∧
    r0.cfg.fx29Policy = .fault := by decide

theorem witness_BcdStoresThreeDigits :
    (withI 0xFFD r0).iReg.toNat + 2 ≤ 0xFFF ∧ 0xFFF < (withI 0xFFE r0).iReg.toNat + 2 := by decide

theorem witness_RegisterDumpStoresV0ToVx :
    (withI 0xFF0 r0).iReg.toNat + (0xF : RegIdx).toNat ≤ 0xFFF ∧ 0xFFF < (withI 0xFF1 r0).iReg.toNat + (0xF : RegIdx).toNat ∧
    (0x3 : RegIdx).toNat ≤ (0xF : RegIdx).toNat ∧ (withQuirks allOn (withI 0xFF0 r0)).cfg.quirks.memory = true ∧
    (withQuirks allOff (withI 0xFF0 r0)).cfg.quirks.memory = false := by decide

theorem witness_RegisterLoadFillsV0ToVx :
    (withI 0xFFF r0).iReg.toNat + (0 : RegIdx).toNat ≤ 0xFFF ∧ 0xFFF < (withI 0x1000 r0).iReg.toNat + (0 : RegIdx).toNat ∧
    (0 : RegIdx).toNat < (1 : RegIdx).toNat ∧ (withQuirks allOn (withI 0xFFF r0)).cfg.quirks.memory = true ∧
    (withQuirks allOff (withI 0xFFF r0)).cfg.quirks.memory = false := by decide

theorem witness_TimerPollCarriesForwardAndTicksOnce :
    polled.acc + 99 < polled.cfg.timerPeriod ∧ polled.cfg.timerPeriod ≤ polled.acc + 100 := by decide

theorem witness_TimerDriftIsBounded :
    ∃ n t, 0 < polled.cfg.timerPeriod ∧ runPolls polled [60, 60, 100] = (n, t) ∧ polled.acc < polled.cfg.timerPeriod ∧
      ∀ e ∈ [60, 60, 100], e ≤ polled.cfg.timerPeriod := ⟨_, _, by decide, rfl, by decide, by decide⟩

/-- A sprite of one bit at (5, 0), on the screen where that pixel is set. -/
def drawing : State := withI 0xFFF (stored 0xFFF [0x80] (dotted 5 0 (regs [(0, 5)] r0)))

theorem covers_drawing : SpriteCovers drawing 0 1 1 5 0 := ⟨0, 0, by decide, by decide, by decide, by decide⟩

/-- The last address in memory, the first outside it, no row at all; a covered pixel that is set, one that is not covered. -/
theorem witness_DrawTogglesTheCoveredPixels :
    ((0 : Nibble) = 0) ∧ drawing.iReg.toNat + (1 : Nibble).toNat - 1 ≤ 0xFFF ∧ (2 : Nibble) ≠ 0 ∧
    0xFFF < drawing.iReg.toNat + (2 : Nibble).toNat - 1 ∧
    (∃ px py, SpriteCovers drawing 0 1 1 px py ∧ drawing.screen.pixel px py = true) ∧
    ¬ SpriteCovers drawing 0 1 0 5 0 :=
  ⟨rfl, by decide, by decide, by decide, ⟨5, 0, covers_drawing, by decide⟩,
    fun ⟨r, _, h, _⟩ => absurd h (Nat.not_lt_zero r)⟩

theorem witness_DrawingTwiceRestoresTheScreen :
    ∃ t u, (0 : RegIdx) ≠ 0xF ∧ (1 : RegIdx) ≠ 0xF ∧ ((1 : Nibble) = 0 ∨ drawing.iReg.toNat + (1 : Nibble).toNat - 1 ≤ 0xFFF) ∧
      exec (.drw 0 1 1) drawing = .next t ∧ exec (.drw 0 1 1) t = .next u := ⟨_, _, by decide, by decide, by decide, rfl, rfl⟩

/-- The key indices 0xF and 0x10, either level. -/
theorem witness_KeySkipsTestTheLevel :
    ((regs [(5, 0x0F)] r0).reg 5).toNat = (15 : Fin 16).val ∧ r0.keys[(15 : Fin 16)] = false ∧
    (pressed [15])[(15 : Fin 16)] = true ∧ 0xF < ((regs [(5, 0x10)] r0).reg 5).toNat := by decide

theorem witness_KeyWaitPollTakesTheLowestFreshKey :
    ((waiting [9, 4] []).fault = none ∧ (waiting [9, 4] []).waitKey = true ∧ (waiting [9, 4] []).keys[(4 : Fin 16)] = true ∧
      (waiting [9, 4] []).keyPrev[(4 : Fin 16)] = false ∧
      ∀ j : Fin 16, j < 4 → (waiting [9, 4] []).keys[j] = false ∨ (waiting [9, 4] []).keyPrev[j] = true) ∧
    ∀ k : Fin 16, (waiting [3] [3]).keys[k] = false ∨ (waiting [3] [3]).keyPrev[k] = true := by decide

theorem witness_BadWordRaisesBadInstruction :
    (running 0x5121).fault = none ∧ (running 0x5121).waitKey = false ∧ (running 0x5121).fetch = .ok 0x5121 ∧
    isBadWord 0x5121 = true := ⟨rfl, rfl, rfl, by decide⟩

end Sys2Proof.Tests
end

namespace Sys2Proof.Machine

/-! ## Control flow: what a pc update keeps, and where a skip, a jump with offset and the 0NNN words go
(spec/40_control_flow.md) -/

/-! ### Updates of the pc alone -/

theorem State.onlyPc_advance (s : State) : OnlyPc s s.advance := ⟨rfl, s.reg_advance, fun _ => rfl⟩

theorem State.onlyPc_skipIf (s : State) (c : Bool) : OnlyPc s (s.skipIf c) := ⟨rfl, s.reg_skipIf c, fun _ => rfl⟩

theorem State.onlyPc_jump (s : State) (w : Word) : OnlyPc s (s.jump w) := ⟨rfl, s.reg_jump w, fun _ => rfl⟩

/-- An instruction that answers a skip on `c` advances pc by 4 where `p` makes `c` true, by 2 where `q` makes it false
(R60). -/
theorem exec_skip {i : Instr} {s : State} {c : Bool} {p q : Prop} (he : exec i s = .next (s.skipIf c))
    (hp : p → c = true) (hq : q → c = false) :
    ∃ t, exec i s = .next t ∧ OnlyPc s t ∧ (p → t.pc = s.pc + 4) ∧ (q → t.pc = s.pc + 2) :=
  ⟨s.skipIf c, he, s.onlyPc_skipIf c, fun h => by simp [hp h], fun h => by simp [hq h]⟩

/-! ### Jump targets as numbers -/

@[simp] theorem addrOperand_toNat (nnn : Addr12) : (addrOperand nnn).toNat = nnn.toNat := by
  simp only [addrOperand, BitVec.toNat_setWidth]
  omega

@[simp] theorem byteOperand_toNat (b : Byte) : (byteOperand b).toNat = b.toNat := by
  simp only [byteOperand, BitVec.toNat_setWidth]
  omega

/-- The sum is at most 0xFFF + 0xFF, so 16 bits hold it (R70). -/
theorem State.offsetTarget_toNat (s : State) (x : RegIdx) (nnn : Addr12) :
    (s.offsetTarget x nnn).toNat =
      nnn.toNat + (if s.cfg.quirks.jumping then s.reg x else s.reg 0).toNat := by
  simp only [State.offsetTarget, BitVec.toNat_add, addrOperand_toNat, byteOperand_toNat]
  omega

/-! ### The words of family 0 -/

theorem nnnField_eq_setWidth (w : Word) : nnnField w = w.setWidth 12 :=
  BitVec.eq_of_toNat_eq (by rw [nnnField_toNat, BitVec.toNat_setWidth])

theorem opField_eq_zero {w : Word} (h : w.toNat < 0x1000) : opField w = 0 :=
  BitVec.eq_of_toNat_eq (by rw [opField_toNat]; exact Nat.div_eq_of_lt h)

/-- Family 0 of the decoder: the two exact words before the 0NNN catch-all (R50). -/
theorem decode_of_opField_eq_zero {w : Word} (h : opField w = 0) :
    decode w = if w = 0x00E0 then .cls else if w = 0x00EE then .ret else .sys (nnnField w) := by
  unfold decode
  rw [h]
  rfl

/-! ### The statements -/

/-- Settles O28: SYS answers `State.advance`, and a word below 0x1000 is in family 0, whose catch-all is left once 00E0 and
00EE are excluded. -/
theorem sysOnlyAdvancesPc : Obligations.SysOnlyAdvancesPc := by
  refine ⟨fun _ s => ⟨s.advance, rfl, s.advance_pc, s.onlyPc_advance⟩, fun w hw hcls hret => ?_⟩
  rw [decode_of_opField_eq_zero (opField_eq_zero hw), if_neg hcls, if_neg hret, nnnField_eq_setWidth]

/-- Settles O33: each of the four answers a skip on its own comparison. -/
theorem skipsAdvanceByFourOrTwo : Obligations.SkipsAdvanceByFourOrTwo := fun _ _ _ _ =>
  ⟨exec_skip rfl decide_eq_true decide_eq_false,
    exec_skip rfl decide_eq_true fun h => decide_eq_false (not_not_intro h),
    exec_skip rfl decide_eq_true decide_eq_false,
    exec_skip rfl decide_eq_true fun h => decide_eq_false (not_not_intro h)⟩

/-- Settles O34: the jump writes `State.offsetTarget`, whose value is an exact sum under either setting of the quirk. -/
theorem jumpWithOffsetAddsTheQuirkRegister : Obligations.JumpWithOffsetAddsTheQuirkRegister := by
  intro x nnn s
  refine ⟨s.jump (s.offsetTarget x nnn), rfl, s.onlyPc_jump _, fun h => ?_, fun h => ?_⟩
  · rw [State.jump_pc, State.offsetTarget_toNat, h, if_neg Bool.false_ne_true]
  · rw [State.jump_pc, State.offsetTarget_toNat, h, if_pos rfl]

end Sys2Proof.Machine

namespace Sys2Proof.Machine

/-! ## Registers and ALU: what the loads, the bitwise operations and the shifts leave (spec/41_alu.md) -/

/-! ### Updates of the registers, then of the pc -/

/-- An update of the registers alone, then `pc <- pc + 2`: the way every operation of the family ends. -/
theorem State.advance_of_v_frame {s u : State} (h : u = { s with v := u.v }) :
    u.advance.pc = s.pc + 2 ∧ OnlyRegsAndPc s u.advance := by
  rw [h]
  exact ⟨rfl, rfl, fun _ => rfl⟩

/-- An instruction that answers one register write (R10, R60). -/
theorem exec_setReg {i : Instr} {s : State} {x : RegIdx} {b : Byte} (he : exec i s = .next (s.setReg x b).advance) :
    ∃ t, exec i s = .next t ∧ t.reg x = b ∧ SameRegsBut x s t ∧ t.pc = s.pc + 2 ∧ OnlyRegsAndPc s t :=
  ⟨_, he, s.reg_setReg_same x b, fun _ hr => s.reg_setReg_ne hr b, State.advance_of_v_frame rfl⟩

/-- An instruction that answers an ALU result and, after it, the flag (R74). -/
theorem exec_aluWithFlag {i : Instr} {s : State} {op : AluOp} {x : RegIdx} {a b : Byte}
    (he : exec i s = .next (s.aluWithFlag op x a b).advance) :
    ∃ t, exec i s = .next t ∧ (x ≠ 0xF → t.reg x = aluResult op a b) ∧ t.reg 0xF = flagByte (aluFlag op a b) ∧
      SameRegsButFlag x s t ∧ t.pc = s.pc + 2 ∧ OnlyRegsAndPc s t := by
  refine ⟨_, he, fun hx => ?_, ?_, fun r hr hf => ?_, State.advance_of_v_frame (s.aluWithFlag_frame op x a b)⟩ <;>
    rw [State.reg_advance, State.reg_aluWithFlag]
  · rw [if_neg hx, if_pos rfl]
  · rw [if_pos rfl]
  · rw [if_neg hf, if_neg hr]

/-- An instruction that answers a bitwise operation: the quirk decides whether the flag, which is 0, is written after the
result (R78 to R80). -/
theorem exec_bitwise {i : Instr} {s : State} {op : AluOp} {x y : RegIdx} (hop : op = .or ∨ op = .and ∨ op = .xor)
    (he : exec i s = .next (s.bitwise op x y).advance) :
    ∃ t, exec i s = .next t ∧ t.pc = s.pc + 2 ∧ OnlyRegsAndPc s t ∧
      (s.cfg.quirks.vfReset = true →
        t.reg 0xF = 0 ∧ (x ≠ 0xF → t.reg x = aluResult op (s.reg x) (s.reg y)) ∧ SameRegsButFlag x s t) ∧
      (s.cfg.quirks.vfReset = false → t.reg x = aluResult op (s.reg x) (s.reg y) ∧ SameRegsBut x s t) := by
  obtain ⟨hpc, honly⟩ := State.advance_of_v_frame (s.bitwise_frame op x y)
  have hreg (r : RegIdx) : (s.bitwise op x y).advance.reg r =
      if s.cfg.quirks.vfReset = true ∧ r = 0xF then 0
      else if r = x then aluResult op (s.reg x) (s.reg y) else s.reg r := by
    rw [State.reg_advance, State.reg_bitwise, aluFlag_bitwise hop, flagByte_false]
  refine ⟨_, he, hpc, honly, fun hq => ⟨?_, fun hx => ?_, fun r hr hf => ?_⟩, fun hq => ⟨?_, fun r hr => ?_⟩⟩ <;>
    rw [hreg]
  · rw [if_pos ⟨hq, rfl⟩]
  · rw [if_neg fun h => hx h.2, if_pos rfl]
  · rw [if_neg fun h => hf h.2, if_neg hr]
  · rw [if_neg (by simp [hq]), if_pos rfl]
  · rw [if_neg (by simp [hq]), if_neg hr]

/-! ### Shift results and flags as numbers -/

@[simp] theorem flagByte_toNat (c : Bool) : (flagByte c).toNat = c.toNat := by
  cases c <;> rfl

theorem aluResult_shr_toNat (a b : Byte) : (aluResult .shr a b).toNat = a.toNat / 2 :=
  Nat.shiftRight_eq_div_pow _ 1

theorem aluResult_shl_toNat (a b : Byte) : (aluResult .shl a b).toNat = 2 * a.toNat % 256 := by
  rw [aluResult, BitVec.toNat_shiftLeft, Nat.shiftLeft_eq, Nat.mul_comm]

theorem aluFlag_shr_toNat (a b : Byte) : (aluFlag .shr a b).toNat = a.toNat % 2 := by
  rw [aluFlag, BitVec.getLsbD, Nat.toNat_testBit, pow_zero, Nat.div_one]

/-- Bit 7 is the top bit, so the quotient by 128 is already below 2. -/
theorem aluFlag_shl_toNat (a b : Byte) : (aluFlag .shl a b).toNat = a.toNat / 128 := by
  rw [aluFlag, BitVec.getLsbD, Nat.toNat_testBit]
  omega

/-! ### The statements -/

/-- Settles O37: each of the two answers one register write. -/
theorem loadsIntoVxWriteNoFlag : Obligations.LoadsIntoVxWriteNoFlag := fun _ _ _ _ =>
  ⟨exec_setReg rfl, exec_setReg rfl⟩

/-- Settles O39: each of the three answers `State.bitwise` of its own operation. -/
theorem bitwiseResultsAndTheResetFlag : Obligations.BitwiseResultsAndTheResetFlag := by
  rintro x y s i r (⟨rfl, rfl⟩ | ⟨rfl, rfl⟩ | ⟨rfl, rfl⟩)
  · exact exec_bitwise (.inl rfl) rfl
  · exact exec_bitwise (.inr (.inl rfl)) rfl
  · exact exec_bitwise (.inr (.inr rfl)) rfl

/-- Settles O43: both answer `State.aluWithFlag` of the shift source, and its result and flag, as numbers, are
quotients, remainders and doubles of that source. -/
theorem shiftsMoveOneBitIntoVf : Obligations.ShiftsMoveOneBitIntoVf := by
  rintro x y s a (ha : a = s.shiftSource x y)
  subst ha
  constructor
  · obtain ⟨t, he, hx, hf, hrest⟩ := exec_aluWithFlag (i := .shr x y) (s := s) rfl
    exact ⟨t, he, fun h => by rw [hx h, aluResult_shr_toNat],
      by rw [hf, flagByte_toNat, aluFlag_shr_toNat], hrest⟩
  · obtain ⟨t, he, hx, hf, hrest⟩ := exec_aluWithFlag (i := .shl x y) (s := s) rfl
    exact ⟨t, he, fun h => by rw [hx h, aluResult_shl_toNat],
      by rw [hf, flagByte_toNat, aluFlag_shl_toNat], hrest⟩

end Sys2Proof.Machine

namespace Sys2Proof.Machine

/-! ## Index register and memory transfers: what ANNN leaves (spec/42_index_memory.md) -/

/-- Settles O44: ANNN writes its address, extended with zeros, to I and then answers `State.advance`, which changes pc
alone. -/
theorem loadIndexWritesTheAddress : Obligations.LoadIndexWritesTheAddress := by
  intro nnn s
  obtain ⟨hframe, hregs, hmem⟩ := State.onlyPc_advance { s with iReg := addrOperand nnn }
  exact ⟨_, rfl, addrOperand_toNat nnn, State.advance_pc _, hframe, hregs, hmem⟩

end Sys2Proof.Machine

namespace Sys2Proof.Machine

/-! ## Timers: what the moves between VX and the timer registers leave (spec/43_timers.md) -/

/-- The output `st_out` reads ST itself, so an advance of pc leaves it (R96). -/
theorem State.stOut_advance (s : State) : State.stOut s.advance = s.st := rfl

/-- Settles O50: FX07 answers one register write, of DT; FX15 and FX18 write VX to their timer and then answer
`State.advance`, which changes pc alone, so the divider `acc` stays as it is. -/
theorem timerRegistersMoveThroughVx : Obligations.TimerRegistersMoveThroughVx := by
  intro x s
  refine ⟨exec_setReg rfl, ?_, ?_⟩
  · obtain ⟨hframe, hregs, hmem⟩ := State.onlyPc_advance { s with dt := s.reg x }
    exact ⟨_, rfl, State.advance_dt _, State.advance_pc _, hframe, hregs, hmem⟩
  · obtain ⟨hframe, hregs, hmem⟩ := State.onlyPc_advance { s with st := s.reg x }
    exact ⟨_, rfl, State.advance_st _, State.stOut_advance _, State.advance_pc _, hframe, hregs, hmem⟩

end Sys2Proof.Machine

namespace Sys2Proof.Machine

/-! ## Display and keys: what 00E0 and FX0A leave (spec/44_display_keys_random.md) -/

/-- Settles O53: CLS puts the blank screen in place and then answers `State.advance`, which changes pc alone; VF is kept
with the other registers. -/
theorem clsClearsEveryPixel : Obligations.ClsClearsEveryPixel := by
  intro s
  obtain ⟨hframe, hregs, hmem⟩ := State.onlyPc_advance { s with screen := blankScreen }
  exact ⟨_, rfl, blankScreen_pixel, State.advance_pc _, hframe, hregs, hmem⟩

/-- Settles O58: FX0A writes the latch and its register number and then answers `State.advance`, which changes pc alone;
VX waits for the poll. -/
theorem keyWaitSetsTheLatch : Obligations.KeyWaitSetsTheLatch := by
  intro x s
  obtain ⟨hframe, hregs, hmem⟩ := State.onlyPc_advance { s with waitKey := true, waitReg := x }
  exact ⟨_, rfl, State.advance_waitKey _, State.advance_waitReg _, State.advance_pc _, hframe, hregs, hmem⟩

end Sys2Proof.Machine

namespace Sys2Proof.Machine

/-! ## Exceptions: what an instruction or a step that raises a fault leaves (spec/60_exceptions.md) -/

variable {s t : State} {i : Instr} {k : FaultKind} {r : FaultRecord}

/-! ### An instruction completes or raises -/

/-- The two ways an instruction ends (R104, R106): a next state that keeps the fault status, or the state before it with
the record of a fault its own kind may raise. -/
def CompletesOrRaises (i : Instr) (s : State) : Prop :=
  ∃ t, exec i s = .next t ∧ (t.fault = s.fault ∨ ∃ k, mayRaise i s k ∧ RaisedOn s k t)

theorem CompletesOrRaises.of_next (he : exec i s = .next t) (hf : t.fault = s.fault) : CompletesOrRaises i s :=
  ⟨t, he, .inl hf⟩

theorem CompletesOrRaises.of_raise (he : exec i s = .next (s.raise k)) (hm : mayRaise i s k) : CompletesOrRaises i s :=
  ⟨_, he, .inr ⟨k, hm, rfl⟩⟩

theorem State.bitwise_fault (s : State) (op : AluOp) (x y : RegIdx) : (s.bitwise op x y).fault = s.fault := by
  rw [s.bitwise_frame op x y]

/-- The word a faulting FX29 reports is the instruction's own encoding (R90). -/
theorem fx29Word_eq_encode (x : RegIdx) : fx29Word x = encode (.ldF x) := by
  revert x
  decide

open CompletesOrRaises in
/-- Every instruction completes or raises. Ten kinds can raise; each splits on the condition `mayRaise` names. -/
theorem exec_completesOrRaises (i : Instr) (s : State) : CompletesOrRaises i s := by
  cases i with
  | ret =>
    rcases hsp : s.sp.val with _ | n
    · exact of_raise (execRet_raise s hsp) ⟨rfl, hsp⟩
    · exact of_next (execRet_ok s (by omega) hsp) rfl
  | call nnn =>
    rcases Nat.lt_or_ge s.sp.val 16 with hsp | hsp
    · exact of_next (execCall_ok s nnn hsp) rfl
    · have hfull : s.sp.val = 16 := by omega
      exact of_raise (execCall_raise s nnn hfull) ⟨rfl, hfull⟩
  | drw x y n =>
    by_cases h : 0 < n.toNat ∧ 0xFFF < s.iReg.toNat + n.toNat - 1
    · exact of_raise (execDrw_raise s x y n h.1 (by omega)) ⟨rfl, h⟩
    · exact of_next (execDrw_ok s x y n (by omega)) rfl
  | skp x =>
    rcases Nat.lt_or_ge 0xF (s.reg x).toNat with h | h
    · exact of_raise (execSkp_raise s h) ⟨rfl, h⟩
    · exact of_next (execSkp_ok s (by omega)) rfl
  | sknp x =>
    rcases Nat.lt_or_ge 0xF (s.reg x).toNat with h | h
    · exact of_raise (execSknp_raise s h) ⟨rfl, h⟩
    · exact of_next (execSknp_ok s (by omega)) rfl
  | ldF x =>
    cases hp : s.cfg.fx29Policy with
    | fault => exact of_raise (execLdF_raise s x hp) ⟨by rw [fx29Word_eq_encode], hp⟩
    | font base => exact of_next (execLdF_ok s x hp) rfl
  | ldB x =>
    rcases Nat.lt_or_ge 0xFFF (s.iReg.toNat + 2) with h | h
    · exact of_raise (execLdB_raise s x h) ⟨rfl, h⟩
    · exact of_next (execLdB_ok s x h) rfl
  | stRegs x =>
    rcases Nat.lt_or_ge 0xFFF (s.iReg.toNat + x.toNat) with h | h
    · exact of_raise (execStRegs_raise s x h) ⟨rfl, h⟩
    · exact of_next (execStRegs_ok s x h) rfl
  | ldRegs x =>
    rcases Nat.lt_or_ge 0xFFF (s.iReg.toNat + x.toNat) with h | h
    · exact of_raise (execLdRegs_raise s x h) ⟨rfl, h⟩
    · obtain ⟨v, he, -⟩ := execLdRegs_ok s x h
      exact of_next he rfl
  | bad w => exact of_raise rfl rfl
  | orReg x y | andReg x y | xorReg x y => exact of_next rfl (s.bitwise_fault _ x y)
  | sys | cls | jp | seImm | sneImm | seReg | ldImm | addImm | ldReg | addReg | sub | shr | subn | shl | sneReg | ldI
  | jpOff | rnd | ldVxDt | ldK | ldDt | ldSt | addI => exact of_next rfl rfl

/-! ### A step that raises -/

/-- The poll of a key wait raises nothing (R103). -/
theorem State.keyWaitPoll_fault (s : State) : s.keyWaitPoll.fault = s.fault := by
  rcases s.keyWaitPoll_cases with ⟨-, h⟩ | ⟨k, ks, -, h⟩ <;> rw [h] <;> rfl

/-- A step that raised samples no keys (R22, R106). -/
theorem retire_raise (s : State) (k : FaultKind) : retire (.next (s.raise k)) = .next (s.raise k) := rfl

/-- A step that did not raise samples the keys, and only they change (R104). -/
theorem retire_of_fault_none (h : t.fault = none) : retire (.next t) = .next t.sampleKeys := by
  rw [retire_next, if_pos h]

/-- A record latched by a step was raised by its fetch or by its instruction, on the state before the step (R104, R106):
a poll raises nothing, and a step whose instruction completes ends with no fault. -/
theorem recordAgrees_of_step (h : s.fault = none) (hs : step s = .next t) (hr : t.fault = some r) :
    s.waitKey = false ∧ RecordAgrees s r ∧ t = { s with fault := some r } := by
  rcases step_cases s with ⟨h', -⟩ | ⟨-, -, e⟩ | ⟨k, -, hw, hf, e⟩ | ⟨w, -, hw, hf, e⟩
  · exact absurd h h'
  · cases e.symm.trans hs
    rw [s.keyWaitPoll_fault, h] at hr
    cases hr
  · cases e.symm.trans hs
    cases hr
    exact ⟨hw, ⟨rfl, .inl hf⟩, rfl⟩
  · obtain ⟨u, he, hu | ⟨k, hm, rfl⟩⟩ := exec_completesOrRaises (decode w) s
    · have hnone : u.fault = none := hu.trans h
      rw [he, retire_of_fault_none hnone] at e
      cases e.symm.trans hs
      rw [State.sampleKeys_fault, hnone] at hr
      cases hr
    · rw [he] at e
      cases e.symm.trans hs
      cases hr
      exact ⟨hw, ⟨rfl, .inr ⟨w, hf, hm⟩⟩, rfl⟩

/-- The outcome of a step that is neither halted nor a poll is read off the state it ends in (R104). -/
theorem stepOutcome_of_running (h : s.fault = none) (hw : s.waitKey = false) (hs : step s = .next t) :
    stepOutcome s = some t.endedAs := by
  simp [stepOutcome, h, hw, hs]

theorem State.endedAs_of_fault (hr : t.fault = some r) : t.endedAs = .faulted r := by
  rw [State.endedAs, hr]

/-- Settles O12: the record agrees with the state before the step, which is left but for the record, and that step was no
poll, so its outcome reports the record. -/
theorem faultsArePrecise : Obligations.FaultsArePrecise := by
  intro s t r h hs hr
  obtain ⟨hw, ⟨hpc, -⟩, ht⟩ := recordAgrees_of_step h hs hr
  exact ⟨hpc, ht, by rw [stepOutcome_of_running h hw hs, State.endedAs_of_fault hr]⟩

end Sys2Proof.Machine

namespace Sys2Proof

/-! ## The decoder and the encoder against each other (spec/30_encoding.md R46 to R55) -/

/-! ### A word with known fields is rebuilt from the others -/

section
variable {w : Word} {op n : Nibble} {nn : Byte}

theorem wordNNN_of_opField (hop : opField w = op) : wordNNN op (nnnField w) = w := hop ▸ wordNNN_fields w

theorem wordXNN_of_fields (hop : opField w = op) (hnn : nnField w = nn) : wordXNN op (xField w) nn = w :=
  hop ▸ hnn ▸ wordXNN_fields w

theorem wordXYN_of_fields (hop : opField w = op) (hn : nField w = n) :
    wordXYN op (xField w) (yField w) n = w := hop ▸ hn ▸ wordXYN_fields w

end

/-! ### The words of BAD -/

/-- The list of R53 in terms of the fields the decoder reads (R47). -/
theorem isBadWord_iff (w : Word) : isBadWord w = true ↔
    (opField w = 0x5 ∧ nField w ≠ 0x0) ∨
    (opField w = 0x8 ∧ nField w ∈ [0x8, 0x9, 0xA, 0xB, 0xC, 0xD, 0xF]) ∨
    (opField w = 0x9 ∧ nField w ≠ 0x0) ∨
    (opField w = 0xE ∧ nnField w ∉ [0x9E, 0xA1]) ∨
    (opField w = 0xF ∧ nnField w ∉ [0x07, 0x0A, 0x15, 0x18, 0x1E, 0x29, 0x33, 0x55, 0x65]) := by
  simp [isBadWord, opField, nField, nnField, or_assoc, and_assoc]

/-- Every word of the list falls through its family's rows (R50, R53). -/
theorem decode_of_isBadWord {w : Word} (h : isBadWord w = true) : decode w = .bad w := by
  rcases (isBadWord_iff w).mp h with ⟨hop, hn⟩ | ⟨hop, hn⟩ | ⟨hop, hn⟩ | ⟨hop, hnn⟩ | ⟨hop, hnn⟩ <;>
    unfold decode <;> rw [hop]
  · exact if_neg hn
  · simp only [List.mem_cons, List.not_mem_nil, or_false] at hn
    rcases hn with hn | hn | hn | hn | hn | hn | hn <;> simp [decodeFamily8, hn]
  · exact if_neg hn
  · simp only [List.mem_cons, List.not_mem_nil, or_false, not_or] at hnn
    simp only [decodeFamilyE]
    split <;> simp_all
  · simp only [List.mem_cons, List.not_mem_nil, or_false, not_or] at hnn
    simp only [decodeFamilyF]
    split <;> simp_all


/-! ### The round trips -/

/-- A descriptor that some word stands for, and stands for this one (R50). -/
def Represents (i : Instr) (w : Word) : Prop := i.wellFormed = true ∧ encode i = w

theorem represents_bad {w : Word} (h : isBadWord w = true) : Represents (.bad w) w := ⟨h, rfl⟩

/-- Family 8: a row per trailing nibble, and BAD on the nibbles left over. -/
theorem represents_decodeFamily8 {w : Word} (hop : opField w = 0x8) : Represents (decodeFamily8 w) w := by
  unfold decodeFamily8
  split
  case h_10 =>
    refine represents_bad ((isBadWord_iff w).mpr (.inr (.inl ⟨hop, ?_⟩)))
    clear hop
    generalize nField w = n at *
    revert n
    decide
  all_goals exact ⟨rfl, wordXYN_of_fields hop ‹_›⟩

theorem represents_decodeFamilyE {w : Word} (hop : opField w = 0xE) : Represents (decodeFamilyE w) w := by
  unfold decodeFamilyE
  split
  case h_3 => exact represents_bad ((isBadWord_iff w).mpr (by simp_all))
  all_goals exact ⟨rfl, wordXNN_of_fields hop ‹_›⟩

theorem represents_decodeFamilyF {w : Word} (hop : opField w = 0xF) : Represents (decodeFamilyF w) w := by
  unfold decodeFamilyF
  split
  case h_10 => exact represents_bad ((isBadWord_iff w).mpr (by simp_all))
  all_goals exact ⟨rfl, wordXNN_of_fields hop ‹_›⟩

/-- A 0NNN word that is neither CLS nor RET has an NNN that is neither of theirs (R50). -/
theorem sys_wellFormed {w : Word} (hop : opField w = 0x0) (hcls : w ≠ 0x00E0) (hret : w ≠ 0x00EE) :
    (Instr.sys (nnnField w)).wellFormed = true := by
  have hw := wordNNN_of_opField hop
  simp only [Instr.wellFormed, Bool.and_eq_true, bne_iff_ne]
  constructor <;> rintro h <;> rw [h] at hw
  · exact hcls hw.symm
  · exact hret hw.symm

/-- The X of JP_OFF is the top nibble of its NNN (R48, R70). -/
theorem jpOff_wellFormed (w : Word) : (Instr.jpOff (xField w) (nnnField w)).wellFormed = true := by
  have hx : (nnnField w).extractLsb' 8 4 = xField w := by rw [← xField_wordNNN (opField w), wordNNN_fields]
  simp only [Instr.wellFormed, hx, beq_self_eq_true]

/-- Every word decodes to a well-formed descriptor that keeps the whole word, family by family (R50). -/
theorem represents_decode (w : Word) : Represents (decode w) w := by
  unfold decode
  split
  case h_1 hop =>
    split
    next h => exact ⟨rfl, h.symm⟩
    next hcls =>
    split
    next h => exact ⟨rfl, h.symm⟩
    next hret => exact ⟨sys_wellFormed hop hcls hret, wordNNN_of_opField hop⟩
  case h_6 hop =>
    split
    next hn => exact ⟨rfl, wordXYN_of_fields hop hn⟩
    next hn => exact represents_bad ((isBadWord_iff w).mpr (.inl ⟨hop, hn⟩))
  case h_9 hop => exact represents_decodeFamily8 hop
  case h_10 hop =>
    split
    next hn => exact ⟨rfl, wordXYN_of_fields hop hn⟩
    next hn => exact represents_bad ((isBadWord_iff w).mpr (.inr (.inr (.inl ⟨hop, hn⟩))))
  case h_12 hop => exact ⟨jpOff_wellFormed w, wordNNN_of_opField hop⟩
  case h_14 hop => exact ⟨rfl, wordXYN_of_fields hop rfl⟩
  case h_15 hop => exact represents_decodeFamilyE hop
  case h_16 =>
    refine represents_decodeFamilyF ?_
    generalize opField w = op at *
    revert op
    decide
  case h_2 hop | h_3 hop | h_11 hop => exact ⟨rfl, wordNNN_of_opField hop⟩
  all_goals exact ⟨rfl, wordXNN_of_fields ‹_› rfl⟩


/-- A 0NNN word is CLS's or RET's only with the NNN of that one. -/
theorem wordNNN_zero_ne {nnn : Addr12} {w : Word} (h : nnn ≠ nnnField w) : wordNNN 0x0 nnn ≠ w := fun e =>
  h (by rw [← e, nnnField_wordNNN])

/-- Settles O1: each kind's fields are read back from its word; SYS avoids the two exact words, JP_OFF takes its X from
NNN, and a BAD word falls through its family. -/
theorem decodeOfEncodeIsTheInstruction : Obligations.DecodeOfEncodeIsTheInstruction := by
  intro i hi
  cases i with
  | sys nnn =>
    simp only [Instr.wellFormed, Bool.and_eq_true, bne_iff_ne] at hi
    obtain ⟨hcls, hret⟩ := hi
    rw [encode, Machine.decode_of_opField_eq_zero (opField_wordNNN ..), if_neg (wordNNN_zero_ne hcls),
      if_neg (wordNNN_zero_ne hret), nnnField_wordNNN]
  | cls | ret => rfl
  | jpOff x nnn =>
    have hx : nnn.extractLsb' 8 4 = x := by simpa [Instr.wellFormed] using hi
    simp [encode, decode, xField_wordNNN, hx]
  | bad w => exact decode_of_isBadWord hi
  | jp | call | seImm | sneImm | seReg | ldImm | addImm | sneReg | ldI | rnd | drw => simp [encode, decode]
  | ldReg | orReg | andReg | xorReg | addReg | sub | shr | subn | shl => simp [encode, decode, decodeFamily8]
  | skp | sknp => simp [encode, decode, decodeFamilyE]
  | ldVxDt | ldK | ldDt | ldSt | addI | ldF | ldB | stRegs | ldRegs => simp [encode, decode, decodeFamilyF]

/-- Settles O2: the well-formedness and the round trip of each family's rows. -/
theorem encodeOfDecodeIsTheWord : Obligations.EncodeOfDecodeIsTheWord := represents_decode

/-- A word decodes to a BAD descriptor exactly where it is in the list, and the descriptor carries the word itself. -/
theorem exists_decode_eq_bad_iff (w : Word) : (∃ w', decode w = .bad w') ↔ isBadWord w = true := by
  refine ⟨fun ⟨w', h⟩ => ?_, fun h => ⟨w, decode_of_isBadWord h⟩⟩
  obtain ⟨hwf, henc⟩ := represents_decode w
  rw [h] at hwf henc
  cases henc
  exact hwf

/-- Settles O3: `isBadWord` is R53's list, and its fields as numbers are the quotient and the remainders of the word. -/
theorem illegalWordsAreExactlyTheListed : Obligations.IllegalWordsAreExactlyTheListed := by
  intro w
  rw [exists_decode_eq_bad_iff, isBadWord_iff]
  simp only [← BitVec.toNat_inj, ne_eq, List.mem_cons, List.not_mem_nil, or_false, opField_toNat, nField_toNat,
    nnField_toNat, BitVec.ofNat_eq_ofNat, BitVec.toNat_ofNat]
  omega

/-- Settles O4: the decoder computes on the thirteen closed words. -/
theorem sampleWordsDecode : Obligations.SampleWordsDecode := by
  unfold Obligations.SampleWordsDecode
  decide

/-- Settles O5: the two bytes make the word 256 * hi + lo, and the two short lists are rows of their own. -/
theorem decodeTakesTwoBytesHighFirst : Obligations.DecodeTakesTwoBytesHighFirst :=
  ⟨fun hi lo rest => by rw [decodeBytes, Machine.wordOfBytes_eq], fun _ => rfl, rfl⟩

end Sys2Proof

namespace Sys2Proof.Machine

/-! ## Rules over all instructions: what an instruction leaves where it completes, and where it raises instead
(spec/30_encoding.md R56, spec/60_exceptions.md R104 to R108) -/

variable {s t : State} {i : Instr} {k : FaultKind} {r : RegIdx}

/-! ### The state a completed instruction leaves -/

/-- The `n` bytes from I up (R38). -/
def State.bytesAtI (s : State) (n : Nat) : List Byte := (List.range n).map fun k => s.mem.read (s.iReg.toNat + k)

theorem State.length_bytesAtI (s : State) (n : Nat) : (s.bytesAtI n).length = n := by simp [State.bytesAtI]

/-- DXYN with its rows in memory: the blit, then the collision into VF (R98). -/
def State.drawSprite (s : State) (x y : RegIdx) (n : Nibble) : State :=
  State.setFlag { s with screen := (blit s.screen false (s.drawnPixels x y (s.bytesAtI n.toNat))).1 }
    (blit s.screen false (s.drawnPixels x y (s.bytesAtI n.toNat))).2

/-- What FX29 leaves in I where its policy is a font (R90). -/
def State.glyphOf (s : State) (x : RegIdx) : Word :=
  match s.cfg.fx29Policy with
  | .fault => s.iReg
  | .font base => glyphAddress base (s.reg x)

/-- What an instruction leaves where it raises no fault: closed forms for the nine kinds that raise on some states
(elsewhere their value is immaterial), the model's own answer for the kinds that answer one update on every state.
`exec_eq_after` ties it to `exec`. -/
def State.after (s : State) (i : Instr) : State :=
  match i with
  | .ret => { s with sp := ⟨s.sp.val - 1, by omega⟩, pc := s.stack[s.sp.val - 1] }
  | .call nnn =>
    { s with
      stack := if h : s.sp.val < 16 then s.stack.set s.sp.val (s.pc + 2) h else s.stack
      sp := ⟨min (s.sp.val + 1) 16, by omega⟩, pc := addrOperand nnn }
  | .drw x y n => (s.drawSprite x y n).advance
  | .skp x => s.skipIf (s.keys[(s.reg x).toNat]?.getD false)
  | .sknp x => s.skipIf (!s.keys[(s.reg x).toNat]?.getD false)
  | .ldF x => { s with iReg := s.glyphOf x }.advance
  | .ldB x => { s with mem := s.mem.writeBytes s.iReg.toNat (bcdDigits (s.reg x)) }.advance
  | .stRegs x => (State.bumpI { s with mem := s.mem.writeBytes s.iReg.toNat (s.regRange x) } x).advance
  | .ldRegs x => ((s.setRegsFrom 0 (s.bytesAtI (rangeCount x))).bumpI x).advance
  | i =>
    match exec i s with
    | .next t => t
    | .fault _ | .refused _ => s

/-- Where `mayRaise` names no fault, an instruction completes (R104, R108). -/
theorem exec_eq_after (h : ∀ k, ¬ mayRaise i s k) : exec i s = .next (s.after i) := by
  cases i with
  | ret =>
    have hsp : s.sp.val ≠ 0 := fun e => h _ ⟨rfl, e⟩
    exact execRet_ok s (n := s.sp.val - 1) (by omega) (by omega)
  | call nnn =>
    have hfull : s.sp.val ≠ 16 := fun e => h _ ⟨rfl, e⟩
    have hsp : s.sp.val < 16 := by omega
    simp only [exec, execCall_ok s nnn hsp, State.after, dif_pos hsp, Nat.min_eq_left (Nat.succ_le_of_lt hsp)]
  | drw x y n =>
    have hn : ¬ (0 < n.toNat ∧ 0xFFF < s.iReg.toNat + n.toNat - 1) := fun e => h _ ⟨rfl, e⟩
    exact execDrw_ok s x y n (by omega)
  | skp x =>
    have hx : (s.reg x).toNat < 16 := Nat.lt_succ_of_le (Nat.not_lt.mp fun e => h _ ⟨rfl, e⟩)
    simp only [exec, execSkp_ok s hx, State.after, getElem?_pos s.keys (s.reg x).toNat hx, Option.getD_some]
  | sknp x =>
    have hx : (s.reg x).toNat < 16 := Nat.lt_succ_of_le (Nat.not_lt.mp fun e => h _ ⟨rfl, e⟩)
    simp only [exec, execSknp_ok s hx, State.after, getElem?_pos s.keys (s.reg x).toNat hx, Option.getD_some]
  | ldF x =>
    cases hp : s.cfg.fx29Policy with
    | fault => exact absurd ⟨rfl, hp⟩ (h _)
    | font base => simp only [exec, execLdF_ok s x hp, State.after, State.glyphOf, hp, State.advance]
  | ldB x => exact execLdB_ok s x (Nat.not_lt.mp fun e => h _ ⟨rfl, e⟩)
  | stRegs x =>
    have hx : ¬ 0xFFF < s.iReg.toNat + x.toNat := fun e => h _ ⟨rfl, e⟩
    simp only [exec, execStRegs, State.after,
      s.storeBytes_ok (a := s.iReg.toNat) (bs := s.regRange x) (.inr (by rw [s.length_regRange]; omega))]
  | ldRegs x =>
    have hx : ¬ 0xFFF < s.iReg.toNat + x.toNat := fun e => h _ ⟨rfl, e⟩
    simp only [exec, execLdRegs, State.after, State.bytesAtI,
      s.loadBytes_ok (a := s.iReg.toNat) (n := rangeCount x) (.inr (by rw [rangeCount]; omega))]
  | bad w => exact absurd rfl (h _)
  | sys | cls | jp | seImm | sneImm | seReg | ldImm | addImm | ldReg | orReg | andReg | xorReg | addReg | sub | shr
  | subn | shl | sneReg | ldI | jpOff | rnd | ldVxDt | ldK | ldDt | ldSt | addI => rfl

/-- The kinds that raise do so on every state `mayRaise` names (R105, R108). -/
theorem exec_of_mayRaise (h : mayRaise i s k) : exec i s = .next (s.raise k) := by
  cases i with
  | ret => obtain ⟨rfl, h⟩ := h; exact execRet_raise s h
  | call nnn => obtain ⟨rfl, h⟩ := h; exact execCall_raise s nnn h
  | drw x y n => obtain ⟨rfl, hn, h⟩ := h; exact execDrw_raise s x y n hn (by omega)
  | skp x => obtain ⟨rfl, h⟩ := h; exact execSkp_raise s h
  | sknp x => obtain ⟨rfl, h⟩ := h; exact execSknp_raise s h
  | ldF x => obtain ⟨rfl, h⟩ := h; rw [← fx29Word_eq_encode]; exact execLdF_raise s x h
  | ldB x => obtain ⟨rfl, h⟩ := h; exact execLdB_raise s x h
  | stRegs x => obtain ⟨rfl, h⟩ := h; exact execStRegs_raise s x h
  | ldRegs x => obtain ⟨rfl, h⟩ := h; exact execLdRegs_raise s x h
  | bad w => obtain rfl := h; rfl
  | sys | cls | jp | seImm | sneImm | seReg | ldImm | addImm | ldReg | orReg | andReg | xorReg | addReg | sub | shr
  | subn | shl | sneReg | ldI | jpOff | rnd | ldVxDt | ldK | ldDt | ldSt | addI => exact h.elim

/-- Everything an instruction can do. -/
theorem exec_cases (he : exec i s = .next t) :
    (∃ k, mayRaise i s k ∧ t = s.raise k) ∨ ((∀ k, ¬ mayRaise i s k) ∧ t = s.after i) := by
  by_cases h : ∃ k, mayRaise i s k
  · obtain ⟨k, hk⟩ := h
    cases (exec_of_mayRaise hk).symm.trans he
    exact .inl ⟨k, hk, rfl⟩
  · have hno := not_exists.mp h
    cases (exec_eq_after hno).symm.trans he
    exact .inr ⟨hno, rfl⟩

/-! ### Updates no instruction sees -/

/-- An update that changes neither which fault an instruction raises nor, but for itself, what a completed one
leaves. -/
theorem exec_of_commutes {f : State → State} (hraise : ∀ k, (f s).raise k = f (s.raise k))
    (hmay : ∀ k, mayRaise i (f s) k ↔ mayRaise i s k) (hafter : (f s).after i = f (s.after i))
    (he : exec i s = .next t) : exec i (f s) = .next (f t) := by
  rcases exec_cases he with ⟨k, hk, rfl⟩ | ⟨hno, rfl⟩
  · rw [← hraise]
    exact exec_of_mayRaise ((hmay k).mpr hk)
  · rw [← hafter]
    exact exec_eq_after fun k hk => hno k ((hmay k).mp hk)

/-- The state with another divider and another `display_wait` (R19, R24). -/
def State.withHidden (s : State) (a : Nat) (b : Bool) : State :=
  { s with acc := a, cfg := { s.cfg with quirks := { s.cfg.quirks with displayWait := b } } }

theorem State.advance_withHidden (s : State) (a : Nat) (b : Bool) :
    (s.withHidden a b).advance = s.advance.withHidden a b := rfl

theorem State.setRegsFrom_withHidden (s : State) (a : Nat) (b : Bool) (k : Nat) (bs : List Byte) :
    (s.withHidden a b).setRegsFrom k bs = (s.setRegsFrom k bs).withHidden a b := by
  induction bs generalizing s k with
  | nil => rfl
  | cons c bs ih => exact ih (s.setReg (BitVec.ofNat 4 k) c) (k + 1)

theorem State.bumpI_withHidden (s : State) (a : Nat) (b : Bool) (x : RegIdx) :
    (s.withHidden a b).bumpI x = (s.bumpI x).withHidden a b := by
  rw [State.bumpI, State.bumpI, apply_ite (State.withHidden · a b)]
  rfl

theorem State.bitwise_withHidden (s : State) (a : Nat) (b : Bool) (op : AluOp) (x y : RegIdx) :
    (s.withHidden a b).bitwise op x y = (s.bitwise op x y).withHidden a b := by
  rw [State.bitwise, State.bitwise, apply_ite (State.withHidden · a b)]
  rfl

theorem State.after_withHidden (s : State) (a : Nat) (b : Bool) (i : Instr) :
    (s.withHidden a b).after i = (s.after i).withHidden a b := by
  cases i with
  | orReg | andReg | xorReg => exact congrArg State.advance (s.bitwise_withHidden ..)
  | stRegs => exact congrArg State.advance (State.bumpI_withHidden { s with mem := _ } ..)
  | ldRegs =>
    unfold State.after
    rw [← State.advance_withHidden, ← State.bumpI_withHidden, ← State.setRegsFrom_withHidden]
    rfl
  | sys | cls | ret | jp | call | seImm | sneImm | seReg | ldImm | addImm | ldReg | addReg | sub | shr | subn | shl
  | sneReg | ldI | jpOff | rnd | drw | skp | sknp | ldVxDt | ldK | ldDt | ldSt | addI | ldF | ldB | bad => rfl

/-- Whether an instruction raises depends on the registers its control word reads, on I, the depth and the policy
(R105). -/
theorem mayRaise_congr (hreg : ∀ r, Instr.readsReg i r = true → t.reg r = s.reg r) (hi : t.iReg = s.iReg)
    (hsp : t.sp = s.sp) (hp : t.cfg.fx29Policy = s.cfg.fx29Policy) : mayRaise i t k ↔ mayRaise i s k := by
  cases i with
  | skp x | sknp x =>
    have hx := hreg x (by simp [Instr.readsReg, Instr.controlWord, Instr.xOperand])
    simp only [mayRaise, hx]
  | _ => simp only [mayRaise, hi, hsp, hp]

/-! ### The control word's frame -/

/-- A load of registers writes registers alone, whatever the length of the list. -/
theorem State.setRegsFrom_frame (s : State) (base : Nat) (bs : List Byte) :
    s.setRegsFrom base bs = { s with v := (s.setRegsFrom base bs).v } := by
  induction bs generalizing s base with
  | nil => rfl
  | cons b bs ih => exact ih (s.setReg (BitVec.ofNat 4 base) b) (base + 1)

/-! A register the control word does not name is no destination and, where VF is written, not VF (R13, R56). -/

theorem ne_xOperand_of_vx (hw : (Instr.controlWord i).vx = .vx) (h : Instr.mayWriteReg i r = false) :
    r ≠ Instr.xOperand i := by
  simp only [Instr.mayWriteReg, hw, Bool.or_eq_false_iff] at h
  exact ne_of_beq_false h.1

theorem xOperand_lt_of_range (hw : (Instr.controlWord i).vx = .range) (h : Instr.mayWriteReg i r = false) :
    (Instr.xOperand i).toNat < r.toNat := by
  simp only [Instr.mayWriteReg, hw, Bool.or_eq_false_iff] at h
  exact Nat.lt_of_not_le (of_decide_eq_false h.1)

theorem ne_flag_of_vf (hw : ((Instr.controlWord i).vf != .never) = true) (h : Instr.mayWriteReg i r = false) :
    r ≠ 0xF := by
  simp only [Instr.mayWriteReg, Bool.or_eq_false_iff, hw, Bool.true_and] at h
  exact ne_of_beq_false h.2

/-- A register the control word does not name as a destination or as the flag reads as before. -/
theorem State.reg_after (h : Instr.mayWriteReg i r = false) : (s.after i).reg r = s.reg r := by
  cases i with
  | ldImm | addImm | ldReg | rnd | ldVxDt => exact State.reg_setReg_ne _ (ne_xOperand_of_vx rfl h) _
  | addReg | sub | subn | shr | shl =>
    exact (s.reg_aluWithFlag ..).trans
      ((if_neg (ne_flag_of_vf rfl h)).trans (if_neg (ne_xOperand_of_vx rfl h)))
  | orReg | andReg | xorReg =>
    exact (s.reg_bitwise ..).trans
      ((if_neg fun e => ne_flag_of_vf rfl h e.2).trans (if_neg (ne_xOperand_of_vx rfl h)))
  | drw => exact (State.reg_setFlag ..).trans (if_neg (ne_flag_of_vf rfl h))
  | ldRegs x =>
    have hx : x.toNat < r.toNat := xOperand_lt_of_range rfl h
    have hlen : (s.bytesAtI (rangeCount x)).length = x.toNat + 1 := s.length_bytesAtI _
    have hregs := (s.setRegsFrom_spec (s.bytesAtI (rangeCount x)) 0 (by omega)).1 r
    rw [dif_neg (by omega)] at hregs
    exact (State.reg_bumpI ..).trans hregs
  | stRegs => exact State.reg_bumpI ..
  | sys | cls | ret | call | jp | seImm | sneImm | seReg | sneReg | ldI | jpOff | skp | sknp | ldK | ldDt | ldSt | addI
  | ldF | ldB | bad => rfl

/-- The columns of R56 beside the registers and the pc: what the control word does not say an instruction writes is as
before. -/
structure KeepsOtherColumns (i : Instr) (s t : State) : Prop where
  iReg : (Instr.controlWord i).i = .never → t.iReg = s.iReg
  mem : (∀ n, (Instr.controlWord i).memory ≠ .write n) → t.mem = s.mem
  memOutside : ∀ n, (Instr.controlWord i).memory = .write n → SameMemoryOutside s.iReg.toNat n s t
  sp : (Instr.controlWord i).stack = .none → t.sp = s.sp
  stack : (Instr.controlWord i).stack ≠ .push → t.stack = s.stack
  screen : (Instr.controlWord i).unit ≠ .screenClear → (Instr.controlWord i).unit ≠ .blit → t.screen = s.screen
  dt : (Instr.controlWord i).unit ≠ .loadDt → t.dt = s.dt
  st : (Instr.controlWord i).unit ≠ .loadSt → t.st = s.st
  wait : (Instr.controlWord i).unit ≠ .setWaitLatch → t.waitKey = s.waitKey ∧ t.waitReg = s.waitReg
  draws : ReadPort.rndIn ∉ (Instr.controlWord i).reads → t.rndDraws = s.rndDraws
  acc : t.acc = s.acc
  keys : t.keys = s.keys
  keyPrev : t.keyPrev = s.keyPrev
  cfg : t.cfg = s.cfg

theorem KeepsOtherColumns.refl (i : Instr) (s : State) : KeepsOtherColumns i s s where
  iReg _ := rfl
  mem _ := rfl
  memOutside _ _ _ _ := rfl
  sp _ := rfl
  stack _ := rfl
  screen _ _ := rfl
  dt _ := rfl
  st _ := rfl
  wait _ := ⟨rfl, rfl⟩
  draws _ := rfl
  acc := rfl
  keys := rfl
  keyPrev := rfl
  cfg := rfl

/-- The registers and the pc are in none of these columns. -/
theorem KeepsOtherColumns.of_onlyRegsAndPc (h : OnlyRegsAndPc s t) : KeepsOtherColumns i s t := by
  rw [h.1]
  exact { KeepsOtherColumns.refl i s with }

theorem KeepsOtherColumns.raise (i : Instr) (s : State) (k : FaultKind) : KeepsOtherColumns i s (s.raise k) :=
  { KeepsOtherColumns.refl i s with }

theorem State.after_keepsOtherColumns (s : State) (i : Instr) : KeepsOtherColumns i s (s.after i) := by
  have hrefl := KeepsOtherColumns.refl i s
  cases i with
  | ret => exact { hrefl with sp := nofun }
  | call => exact { hrefl with sp := nofun, stack := fun h => (h rfl).elim }
  | cls => exact { hrefl with screen := fun h => (h rfl).elim }
  | drw => exact { hrefl with screen := fun _ h => (h rfl).elim }
  | rnd => exact { hrefl with draws := fun h => (h (.head _)).elim }
  | ldI | addI | ldF => exact { hrefl with iReg := nofun }
  | ldK => exact { hrefl with wait := fun h => (h rfl).elim }
  | ldDt => exact { hrefl with dt := fun h => (h rfl).elim }
  | ldSt => exact { hrefl with st := fun h => (h rfl).elim }
  | ldB x =>
    refine { hrefl with mem := fun h => (h _ rfl).elim, memOutside := ?_ }
    rintro n ⟨rfl⟩ a ha
    exact Memory.read_writeBytes_outside _ _ _ ha
  | stRegs x =>
    rw [State.after, State.bumpI_frame]
    refine { hrefl with iReg := nofun, mem := fun h => (h _ rfl).elim, memOutside := ?_ }
    rintro n ⟨rfl⟩ a ha
    exact Memory.read_writeBytes_outside _ _ _ (by rwa [s.length_regRange])
  | ldRegs x =>
    rw [State.after, State.bumpI_frame, s.setRegsFrom_frame]
    exact { hrefl with iReg := nofun }
  | orReg x y | andReg x y | xorReg x y => exact .of_onlyRegsAndPc (State.advance_of_v_frame (s.bitwise_frame _ x y)).2
  | sys | jp | seImm | sneImm | seReg | sneReg | jpOff | skp | sknp | ldImm | addImm | ldReg | addReg | sub | subn | shr
  | shl | ldVxDt | bad => exact { hrefl with }

theorem State.skipIf_pc_or (s : State) (c : Bool) : (s.skipIf c).pc = s.pc + 2 ∨ (s.skipIf c).pc = s.pc + 4 := by
  cases c
  · exact .inl rfl
  · exact .inr rfl

/-- The column "pc" of R56 for an instruction that raises nothing. -/
def KeepsPcColumn (i : Instr) (s t : State) : Prop :=
  ((Instr.controlWord i).pc = .plus2 ∨ (Instr.controlWord i).pc = .plus2OrFault → t.pc = s.pc + 2) ∧
  ((Instr.controlWord i).pc = .skip → t.pc = s.pc + 2 ∨ t.pc = s.pc + 4) ∧ (Instr.controlWord i).pc ≠ .fault

theorem KeepsPcColumn.of_advance (hw : (Instr.controlWord i).pc = .plus2 ∨ (Instr.controlWord i).pc = .plus2OrFault)
    (ht : t.pc = s.pc + 2) : KeepsPcColumn i s t :=
  ⟨fun _ => ht, fun _ => .inl ht, by rcases hw with hw | hw <;> rw [hw] <;> decide⟩

theorem KeepsPcColumn.of_skipIf (hw : (Instr.controlWord i).pc = .skip) (c : Bool) :
    KeepsPcColumn i s (s.skipIf c) := by
  refine ⟨fun h => ?_, fun _ => s.skipIf_pc_or c, by rw [hw]; decide⟩
  rw [hw] at h
  rcases h with h | h <;> cases h

theorem KeepsPcColumn.of_target (hw : (Instr.controlWord i).pc = .target) : KeepsPcColumn i s t := by
  simp [KeepsPcColumn, hw]

theorem State.after_keepsPcColumn (hno : ∀ k, ¬ mayRaise i s k) : KeepsPcColumn i s (s.after i) := by
  cases i with
  | ret | jp | call | jpOff => exact .of_target rfl
  | seImm | sneImm | seReg | sneReg | skp | sknp => exact .of_skipIf rfl _
  | bad => exact (hno _ rfl).elim
  | orReg x y | andReg x y | xorReg x y =>
    exact .of_advance (.inl rfl) (State.advance_of_v_frame (s.bitwise_frame _ x y)).1
  | stRegs => exact .of_advance (.inl rfl) (congrArg (· + 2) (State.bumpI_pc ..))
  | ldRegs =>
    rw [State.after, s.setRegsFrom_frame]
    exact .of_advance (.inl rfl) (congrArg (· + 2) (State.bumpI_pc ..))
  | ldF => exact .of_advance (.inr rfl) rfl
  | sys | cls | ldImm | addImm | ldReg | addReg | sub | subn | shr | shl | ldI | rnd | drw | ldVxDt | ldK | ldDt | ldSt
  | addI | ldB => exact .of_advance (.inl rfl) rfl

/-! ### The columns of an instruction that answers -/

theorem exec_keepsOtherColumns (he : exec i s = .next t) : KeepsOtherColumns i s t := by
  rcases exec_cases he with ⟨k, -, rfl⟩ | ⟨-, rfl⟩
  · exact .raise i s k
  · exact s.after_keepsOtherColumns i

theorem exec_reg (he : exec i s = .next t) (h : Instr.mayWriteReg i r = false) : t.reg r = s.reg r := by
  rcases exec_cases he with ⟨k, -, rfl⟩ | ⟨-, rfl⟩
  · exact s.reg_raise k r
  · exact State.reg_after h

theorem exec_keepsPcColumn (he : exec i s = .next t) (h : t.fault = none) : KeepsPcColumn i s t := by
  rcases exec_cases he with ⟨k, -, rfl⟩ | ⟨hno, rfl⟩
  · cases h
  · exact State.after_keepsPcColumn hno

/-- Settles O26: the registers, the pc and the other columns, each of a raised fault and of a completed instruction. -/
theorem instructionsWriteOnlyWhatTheirControlWordSays :
    Obligations.InstructionsWriteOnlyWhatTheirControlWordSays := by
  intro i s t he
  obtain ⟨iReg, mem, memOutside, sp, stack, screen, dt, st, wait, draws, acc, keys, keyPrev, cfg⟩ :=
    exec_keepsOtherColumns he
  exact ⟨fun _ => exec_reg he, iReg, fun h a => by rw [mem h], memOutside, sp, stack, screen, dt, st, wait, draws, acc,
    keys, keyPrev, cfg, fun _ h => exec_keepsPcColumn he h⟩

/-- An instruction on a state with another divider and another `display_wait` does the same and keeps both. -/
theorem exec_withHidden (he : exec i s = .next t) (a : Nat) (b : Bool) :
    exec i (s.withHidden a b) = .next (t.withHidden a b) :=
  exec_of_commutes (f := fun s => s.withHidden a b) (fun _ => rfl)
    (fun _ => mayRaise_congr (fun _ _ => rfl) rfl rfl rfl) (s.after_withHidden a b i) he

/-- Settles O22: another `display_wait`, the divider left as it is, which the instruction keeps. -/
theorem displayWaitHasNoEffect : Obligations.DisplayWaitHasNoEffect := by
  intro i s t b he
  have hacc := (exec_keepsOtherColumns he).acc
  exact (exec_withHidden he s.acc b).trans (by rw [State.withHidden, ← hacc])

/-- Settles O23: another divider, `display_wait` left as it is, which the instruction keeps with the configuration. -/
theorem instructionsIgnoreTheDivider : Obligations.InstructionsIgnoreTheDivider := by
  intro i s t a he
  have hkeeps := exec_keepsOtherColumns he
  exact ⟨hkeeps.acc,
    (exec_withHidden he a s.cfg.quirks.displayWait).trans (by rw [State.withHidden, ← hkeeps.cfg])⟩

/-! ### Which faults -/

theorem raisedOn_fault (h : RaisedOn s k t) : t.fault = some { kind := k, pc := s.pc } := by rw [h]

/-- Settles O14: an instruction completes, which keeps the fault status, or raises. -/
theorem everyInstructionAnswersANextState : Obligations.EveryInstructionAnswersANextState := exec_completesOrRaises

/-- Settles O13: the record a raised fault latches names its kind, and a completed instruction latches none. -/
theorem eachKindRaisesItsOwnFaultOnly : Obligations.EachKindRaisesItsOwnFaultOnly := by
  intro i s k hs
  refine ⟨fun ⟨t, he, ht⟩ => ?_, fun h => ⟨_, exec_of_mayRaise h, rfl⟩⟩
  have hrecord := raisedOn_fault ht
  obtain ⟨u, hu, hkept | ⟨k', hk', hu'⟩⟩ := exec_completesOrRaises i s <;> cases hu.symm.trans he
  · rw [hkept, hs] at hrecord
    cases hrecord
  · cases (raisedOn_fault hu').symm.trans hrecord
    exact hk'

/-! ### A register that is neither read nor written -/

theorem readsReg_xOperand (h : ReadPort.a ∈ (Instr.controlWord i).reads) :
    Instr.readsReg i (Instr.xOperand i) = true :=
  List.any_eq_true.mpr ⟨.a, h, beq_self_eq_true _⟩

theorem readsReg_yOperand (h : ReadPort.b ∈ (Instr.controlWord i).reads) :
    Instr.readsReg i (Instr.yOperand i) = true :=
  List.any_eq_true.mpr ⟨.b, h, beq_self_eq_true _⟩

theorem readsReg_zero (h : ReadPort.v0 ∈ (Instr.controlWord i).reads) : Instr.readsReg i 0 = true :=
  List.any_eq_true.mpr ⟨.v0, h, rfl⟩

theorem readsReg_range (h : ReadPort.range ∈ (Instr.controlWord i).reads)
    (hr : r.toNat ≤ (Instr.xOperand i).toNat) : Instr.readsReg i r = true :=
  List.any_eq_true.mpr ⟨.range, h, decide_eq_true hr⟩

/-- A write to a register that is not read leaves those that are. -/
theorem State.reg_setReg_of_read {x : RegIdx} (hr : Instr.readsReg i r = false) (hx : Instr.readsReg i x = true)
    (s : State) (b : Byte) : (s.setReg r b).reg x = s.reg x :=
  s.reg_setReg_ne (fun e => by rw [e, hr] at hx; cases hx) b

theorem State.aluWithFlag_setReg (s : State) (op : AluOp) {x : RegIdx} (hx : r ≠ x) (hf : r ≠ 0xF) (b p q : Byte) :
    (s.setReg r b).aluWithFlag op x p q = (s.aluWithFlag op x p q).setReg r b := by
  simp only [State.aluWithFlag, State.writeBack, State.setFlag]
  rw [s.setReg_comm hx, State.setReg_comm _ hf]

theorem State.bitwise_setReg (s : State) (op : AluOp) {x y : RegIdx} (hx : r ≠ x) (hf : r ≠ 0xF) {b : Byte}
    (hrx : (s.setReg r b).reg x = s.reg x) (hry : (s.setReg r b).reg y = s.reg y) :
    (s.setReg r b).bitwise op x y = (s.bitwise op x y).setReg r b := by
  simp only [State.bitwise, hrx, hry, State.setFlag, apply_ite (State.setReg · r b)]
  rw [s.setReg_comm hx, State.setReg_comm _ hf]
  rfl

theorem State.advance_setReg (s : State) (b : Byte) : (s.setReg r b).advance = s.advance.setReg r b := rfl

theorem State.setFlag_setReg (s : State) (hf : r ≠ 0xF) (b : Byte) (c : Bool) :
    (s.setReg r b).setFlag c = (s.setFlag c).setReg r b := s.setReg_comm hf b _

theorem State.bumpI_setReg (s : State) (b : Byte) (x : RegIdx) : (s.setReg r b).bumpI x = (s.bumpI x).setReg r b := by
  rw [State.bumpI, State.bumpI, apply_ite (State.setReg · r b)]
  rfl

theorem State.regRange_setReg (s : State) {x : RegIdx} (h : x.toNat < r.toNat) (b : Byte) :
    (s.setReg r b).regRange x = s.regRange x := by
  simp only [State.regRange, rangeCount, State.setReg_v, Vector.toList_set]
  exact List.take_set_of_le h

theorem State.setRegsFrom_setReg (s : State) {base : Nat} {bs : List Byte} (h : base + bs.length ≤ r.toNat)
    (b : Byte) : (s.setReg r b).setRegsFrom base bs = (s.setRegsFrom base bs).setReg r b := by
  induction bs generalizing s base with
  | nil => rfl
  | cons c bs ih =>
    have hne : r ≠ BitVec.ofNat 4 base := by
      rintro rfl
      simp at h
      omega
    simp only [State.setRegsFrom]
    rw [s.setReg_comm hne]
    exact ih _ (by simp at h; omega)

/-- A register that the control word neither reads nor writes (R56). -/
theorem State.after_setReg (hr : Instr.readsReg i r = false) (hw : Instr.mayWriteReg i r = false) (s : State)
    (b : Byte) : (s.setReg r b).after i = (s.after i).setReg r b := by
  have hx (h : ReadPort.a ∈ (Instr.controlWord i).reads) :=
    State.reg_setReg_of_read hr (readsReg_xOperand h) s b
  have hy (h : ReadPort.b ∈ (Instr.controlWord i).reads) :=
    State.reg_setReg_of_read hr (readsReg_yOperand h) s b
  cases i with
  | sys | cls | ret | jp | call | ldI | ldK | bad => rfl
  | seImm x | sneImm x | skp x | sknp x | ldDt x | ldSt x | addI x | ldF x | ldB x =>
    have hx : (s.setReg r b).reg x = s.reg x := hx (.head _)
    simp only [State.after, exec, execSeImm, execSneImm, execLdDt, execLdSt, execAddI, State.glyphOf, hx]
    rfl
  | seReg x y | sneReg x y =>
    have hx : (s.setReg r b).reg x = s.reg x := hx (.head _)
    have hy : (s.setReg r b).reg y = s.reg y := hy (.tail _ (.head _))
    simp only [State.after, exec, execSeReg, execSneReg, hx, hy]
    rfl
  | jpOff x =>
    have h0 : (s.setReg r b).reg 0 = s.reg 0 := State.reg_setReg_of_read hr (readsReg_zero (.head _)) s b
    have hx : (s.setReg r b).reg x = s.reg x := hx (.tail _ (.head _))
    simp only [State.after, exec, execJpOff, State.offsetTarget, h0, hx]
    rfl
  | ldImm | ldVxDt => exact congrArg State.advance (s.setReg_comm (ne_xOperand_of_vx rfl hw) ..)
  | rnd =>
    exact congrArg State.advance (State.setReg_comm { s with rndDraws := s.rndDraws + 1 } (ne_xOperand_of_vx rfl hw) ..)
  | addImm x =>
    have hx : (s.setReg r b).reg x = s.reg x := hx (.head _)
    simp only [State.after, exec, execAddImm, hx]
    exact congrArg State.advance (s.setReg_comm (ne_xOperand_of_vx rfl hw) ..)
  | ldReg x y =>
    have hy : (s.setReg r b).reg y = s.reg y := hy (.head _)
    have hnew : (s.setReg r b).aluNoFlag .pass x ((s.setReg r b).reg x) (s.reg y) =
      (s.aluNoFlag .pass x (s.reg x) (s.reg y)).setReg r b := s.setReg_comm (ne_xOperand_of_vx rfl hw) ..
    simp only [State.after, exec, execLdReg, hy, hnew]
    rfl
  | addReg x y | sub x y | subn x y | shr x y | shl x y =>
    have hx : (s.setReg r b).reg x = s.reg x := hx (.head _)
    have hy : (s.setReg r b).reg y = s.reg y := hy (.tail _ (.head _))
    simp only [State.after, exec, execAddReg, execSub, execSubn, execShr, execShl, State.shiftSource,
      State.setReg_cfg, hx, hy]
    exact congrArg State.advance (s.aluWithFlag_setReg _ (ne_xOperand_of_vx rfl hw) (ne_flag_of_vf rfl hw) ..)
  | orReg x y | andReg x y | xorReg x y =>
    have hx : (s.setReg r b).reg x = s.reg x := hx (.head _)
    have hy : (s.setReg r b).reg y = s.reg y := hy (.tail _ (.head _))
    exact congrArg State.advance (s.bitwise_setReg _ (ne_xOperand_of_vx rfl hw) (ne_flag_of_vf rfl hw)
      hx hy)
  | drw x y n =>
    have hx : (s.setReg r b).reg x = s.reg x := hx (.head _)
    have hy : (s.setReg r b).reg y = s.reg y := hy (.tail _ (.head _))
    simp only [State.after, State.drawSprite, State.drawnPixels, hx, hy]
    rw [← State.advance_setReg, ← State.setFlag_setReg _ (ne_flag_of_vf rfl hw)]
    rfl
  | stRegs x =>
    have hx : x.toNat < r.toNat := Nat.lt_of_not_le fun e => by
      rw [readsReg_range (.head _) e] at hr
      cases hr
    simp only [State.after, s.regRange_setReg hx]
    rw [← State.advance_setReg, ← State.bumpI_setReg]
    rfl
  | ldRegs x =>
    have hx : x.toNat < r.toNat := xOperand_lt_of_range rfl hw
    have hlen : 0 + (s.bytesAtI (rangeCount x)).length ≤ r.toNat := by
      rw [s.length_bytesAtI, rangeCount]
      omega
    rw [State.after, State.after, ← State.advance_setReg, ← State.bumpI_setReg, ← s.setRegsFrom_setReg hlen]
    rfl

/-- Settles O27: the register decides neither which fault is raised nor, but for itself, what a completed instruction
leaves. -/
theorem registersNotReadHaveNoInfluence : Obligations.RegistersNotReadHaveNoInfluence := by
  intro i s t r b hr hw he
  exact exec_of_commutes (f := fun s => s.setReg r b) (fun _ => rfl)
    (fun _ => mayRaise_congr (fun _ hx => State.reg_setReg_of_read hr hx s b) rfl rfl rfl)
    (State.after_setReg hr hw s b) he

end Sys2Proof.Machine

namespace Sys2Proof.Machine

/-! ## The step, the host's events, reset and the invariant (spec/10_state.md, spec/60_exceptions.md,
spec/70_reset_and_hazards.md) -/

variable {s t : State} {i : Instr} {k : FaultKind} {r : FaultRecord}

/-! ### What a step answers -/

theorem retire_of_fault (h : t.fault ≠ none) : retire (.next t) = .next t := by
  rw [retire_next, if_neg h]

/-- The poll writes the register it resolves, the samples and the latch (R103). -/
theorem State.keyWaitPoll_frame (s : State) :
    s.keyWaitPoll = { s with v := s.keyWaitPoll.v, keyPrev := s.keys, waitKey := s.keyWaitPoll.waitKey } := by
  rcases s.keyWaitPoll_cases with ⟨-, h⟩ | ⟨k, ks, -, h⟩ <;> rw [h] <;> rfl

/-- The states a step can end in (R104): the same state, the polled one, the one whose fetch latched its record, or what
the instruction answered, with the keys sampled if it raised nothing. -/
theorem step_next_cases (hs : step s = .next t) :
    (s.fault ≠ none ∧ t = s) ∨ (s.fault = none ∧ s.waitKey = true ∧ t = s.keyWaitPoll) ∨
    (∃ k, s.fault = none ∧ s.waitKey = false ∧ s.fetch = .error k ∧ t = s.raise k) ∨
    (∃ w u, s.fault = none ∧ s.waitKey = false ∧ s.fetch = .ok w ∧ exec (decode w) s = .next u ∧
      ((u.fault = none ∧ t = u.sampleKeys) ∨ (u.fault ≠ none ∧ t = u))) := by
  rcases step_cases s with ⟨h, e⟩ | ⟨h, hw, e⟩ | ⟨k, h, hw, hf, e⟩ | ⟨w, h, hw, hf, e⟩
  · cases e.symm.trans hs
    exact .inl ⟨h, rfl⟩
  · cases e.symm.trans hs
    exact .inr (.inl ⟨h, hw, rfl⟩)
  · cases e.symm.trans hs
    exact .inr (.inr (.inl ⟨k, h, hw, hf, rfl⟩))
  · obtain ⟨u, he, -⟩ := exec_completesOrRaises (decode w) s
    refine .inr (.inr (.inr ⟨w, u, h, hw, hf, he, ?_⟩))
    rw [e, he] at hs
    by_cases hu : u.fault = none
    · cases (retire_of_fault_none hu).symm.trans hs
      exact .inl ⟨hu, rfl⟩
    · cases (retire_of_fault hu).symm.trans hs
      exact .inr ⟨hu, rfl⟩

/-- An instruction keeps memory in its canonical form: the two that store do so inside the 4096 bytes. -/
theorem exec_mem_wf (he : exec i s = .next t) (h : s.mem.wf = true) : t.mem.wf = true := by
  cases i with
  | ldB x =>
    rcases exec_cases he with ⟨k, -, rfl⟩ | ⟨hno, rfl⟩
    · exact h
    · have hin : ¬ 0xFFF < s.iReg.toNat + 2 := fun e => hno _ ⟨rfl, e⟩
      exact Memory.wf_writeBytes h (by rw [length_bcdDigits]; omega)
  | stRegs x =>
    rcases exec_cases he with ⟨k, -, rfl⟩ | ⟨hno, rfl⟩
    · exact h
    · have hin : ¬ 0xFFF < s.iReg.toNat + x.toNat := fun e => hno _ ⟨rfl, e⟩
      rw [State.after, State.bumpI_frame]
      exact Memory.wf_writeBytes h (by rw [s.length_regRange]; omega)
  | _ => rwa [(exec_keepsOtherColumns he).mem nofun]

/-- A step writes neither the keys nor the configuration (R21, R24), and keeps memory canonical. -/
theorem step_keeps (hs : step s = .next t) :
    t.keys = s.keys ∧ t.cfg = s.cfg ∧ (s.mem.wf = true → t.mem.wf = true) := by
  rcases step_next_cases hs with ⟨-, rfl⟩ | ⟨-, -, rfl⟩ | ⟨k, -, -, -, rfl⟩ | ⟨w, u, -, -, -, he, hu⟩
  · exact ⟨rfl, rfl, id⟩
  · rw [s.keyWaitPoll_frame]
    exact ⟨rfl, rfl, id⟩
  · exact ⟨rfl, rfl, id⟩
  · have hkeeps := exec_keepsOtherColumns he
    have hwf := exec_mem_wf he
    rcases hu with ⟨-, rfl⟩ | ⟨-, rfl⟩ <;> exact ⟨hkeeps.keys, hkeeps.cfg, hwf⟩

/-! ### The invariant -/

/-- A record agrees with the pc, the memory and what `mayRaise` reads; the fault status, the timers and the keys are no
part of it. -/
theorem recordAgrees_congr (hpc : t.pc = s.pc) (hmem : t.mem = s.mem) (hv : t.v = s.v) (hi : t.iReg = s.iReg)
    (hsp : t.sp = s.sp) (hcfg : t.cfg = s.cfg) (h : RecordAgrees s r) : RecordAgrees t r := by
  have hfetch : t.fetch = s.fetch := by simp only [State.fetch, State.memRead, hpc, hmem]
  obtain ⟨hr, hkind⟩ := h
  refine ⟨hr.trans hpc.symm, hkind.imp hfetch.trans fun ⟨w, hw, hm⟩ => ⟨w, hfetch.trans hw, ?_⟩⟩
  exact (mayRaise_congr (fun x _ => State.reg_of_v_eq hv x) hi hsp (by rw [hcfg])).mpr hm

/-- Settles O15: a faulted core stays as it is, and the record any other step latches agrees with the state before it,
which differs from the state after it in the fault status alone. -/
theorem stepKeepsTheInvariant : Obligations.StepKeepsTheInvariant := by
  intro s t hinv hs
  by_cases h : s.fault = none
  · obtain ⟨hwf, hperiod, -⟩ := hinv
    obtain ⟨-, hcfg, hmem⟩ := step_keeps hs
    refine ⟨hmem hwf, hcfg ▸ hperiod, fun r hr => ?_⟩
    obtain ⟨hw, hagrees, ht⟩ := recordAgrees_of_step h hs hr
    rw [ht]
    exact ⟨hw, recordAgrees_congr rfl rfl rfl rfl rfl rfl hagrees⟩
  · cases (step_of_fault s h).symm.trans hs
    exact hinv

/-- A timer poll writes the divider and the two timers (R114). -/
theorem State.timerPoll_frame (s : State) (e : Nat) :
    s.timerPoll e = { s with acc := (s.timerPoll e).acc, dt := (s.timerPoll e).dt, st := (s.timerPoll e).st } := by
  rcases s.timerPoll_cases e with ⟨-, h⟩ | ⟨-, h⟩ <;> rw [h]

/-- The invariant does not speak of the keys, the divider and the timers. -/
theorem inv_of_eq {keys : KeyLevels} {acc : Nat} {dt st : Byte} (h : Inv s)
    (ht : t = { s with keys := keys, acc := acc, dt := dt, st := st }) : Inv t := by
  obtain ⟨hwf, hperiod, hrecord⟩ := h
  rw [ht]
  exact ⟨hwf, hperiod, fun r hr =>
    ⟨(hrecord r hr).1, recordAgrees_congr rfl rfl rfl rfl rfl rfl (hrecord r hr).2⟩⟩

theorem runEvent_keeps_inv (e : Event) (h : Inv s) (he : runEvent e s = .next t) : Inv t := by
  cases e with
  | step => exact stepKeepsTheInvariant s t h he
  | setKeys k =>
    cases he
    exact inv_of_eq h rfl
  | timerPoll elapsed =>
    cases he
    exact inv_of_eq h (s.timerPoll_frame elapsed)

/-- What every event keeps, every sequence of events keeps (R29, R110). -/
theorem runEvents_induction {P : State → Prop} (hP : ∀ e s t, P s → runEvent e s = .next t → P t) {es : List Event}
    (h : P s) (hes : runEvents es s = .next t) : P t := by
  induction es generalizing s with
  | nil =>
    cases hes
    exact h
  | cons e es ih =>
    rw [runEvents] at hes
    split at hes
    next u hu => exact ih (hP e s u h hu) hes
    next => cases hes
    next => cases hes

/-- Settles O17: by induction on the events, each of which keeps the invariant. -/
theorem eventsInAnyOrderKeepTheInvariant : Obligations.EventsInAnyOrderKeepTheInvariant := fun _ _ _ h hes =>
  runEvents_induction (fun e _ _ => runEvent_keeps_inv e) h hes

/-! ### Create and reset -/

/-- `create` answers a state only for an image that fits and a positive period, and then the reset state of these
arguments (R30, R122). -/
theorem create_next {image : List Byte} {offset start : Word} {cfg : Config}
    (h : create image offset start cfg = .next s) :
    offset.toNat + image.length ≤ 4096 ∧ 0 < cfg.timerPeriod ∧
      s = { State.reset with pc := start, mem := Memory.writeBytes [] offset.toNat image, cfg := cfg } := by
  unfold create at h
  split at h
  · cases h
  next hfits =>
  split at h
  · cases h
  next hperiod =>
  cases h
  exact ⟨Nat.le_of_not_lt hfits, Nat.pos_of_ne_zero hperiod, rfl⟩

theorem create_of_fits {image : List Byte} {offset : Word} (start : Word) {cfg : Config}
    (hfits : offset.toNat + image.length ≤ 4096) (hperiod : 0 < cfg.timerPeriod) :
    create image offset start cfg =
      .next { State.reset with pc := start, mem := Memory.writeBytes [] offset.toNat image, cfg := cfg } := by
  rw [create, if_neg (Nat.not_lt.mpr hfits), if_neg hperiod.ne']
  rfl

/-- Settles O18: the image is written into empty memory inside its 4096 bytes, and no fault is latched. -/
theorem createMeetsTheInvariant : Obligations.CreateMeetsTheInvariant := by
  intro image offset start cfg s h
  obtain ⟨hfits, hperiod, rfl⟩ := create_next h
  exact ⟨Memory.wf_writeBytes Memory.wf_nil hfits, hperiod, nofun⟩

theorem State.reg_reset (r : RegIdx) : State.reset.reg r = 0 := by simp [State.reg, State.reset, zeroRegs]

/-- Settles O20: `State.reset` is the state `create` builds. -/
theorem resetIsCreateAtTheDefaults : Obligations.ResetIsCreateAtTheDefaults :=
  ⟨rfl, rfl, rfl, rfl, State.reg_reset, Memory.read_nil⟩

/-- Settles O16: `State.reset` is created. -/
theorem resetMeetsTheInvariant : Obligations.ResetMeetsTheInvariant :=
  createMeetsTheInvariant _ _ _ _ _ resetIsCreateAtTheDefaults.1

/-- Settles O19: the two refusals are the branches of `create`, and the rest is read off the reset state. -/
theorem createLeavesTheResetState : Obligations.CreateLeavesTheResetState := by
  intro image offset start cfg
  refine ⟨fun h => if_pos h, fun hfits hperiod => ?_, fun hfits hperiod =>
    ⟨_, create_of_fits start hfits hperiod, rfl, rfl, State.reg_reset, rfl, rfl, fun k => ?_, rfl, rfl, rfl,
      blankScreen_pixel, fun k => ?_, rfl, rfl, rfl, fun k hk => ?_, fun a ha => ?_⟩⟩
  · rw [create, if_neg (Nat.not_lt.mpr hfits), if_pos hperiod]
  · simp [State.reset, zeroStack]
  · simp [State.reset, noKeys]
  · exact Memory.read_writeBytes_inside _ _ _ hk
  · exact Memory.read_writeBytes_outside _ _ _ ha

/-! ### What no event, or only the host's, writes -/

theorem runEvent_cfg (e : Event) (he : runEvent e s = .next t) : t.cfg = s.cfg := by
  cases e with
  | step => exact (step_keeps he).2.1
  | setKeys k =>
    cases he
    rfl
  | timerPoll elapsed =>
    cases he
    rw [s.timerPoll_frame]

/-- Settles O21: by induction on the events, each of which keeps it. -/
theorem configurationNeverChanges : Obligations.ConfigurationNeverChanges := fun _ s _ hes =>
  runEvents_induction (P := fun u => u.cfg = s.cfg) (fun e _ _ h he => (runEvent_cfg e he).trans h) rfl hes

/-- Settles O24: the core's two events keep the keys, and `set_keys` is one update. -/
theorem onlyTheHostWritesKeys : Obligations.OnlyTheHostWritesKeys :=
  ⟨fun _ _ hs => (step_keeps hs).1, fun s e => by rw [s.timerPoll_frame], fun _ _ => rfl⟩

/-- Settles O25: a poll and a retired instruction sample the keys, a halted step and a raised fault do not. -/
theorem keysAreSampledByStepsThatRetireOrPoll : Obligations.KeysAreSampledByStepsThatRetireOrPoll := by
  intro s t hs
  rcases step_next_cases hs with ⟨h, rfl⟩ | ⟨h, -, rfl⟩ | ⟨k, -, -, -, rfl⟩ | ⟨w, u, -, -, -, he, hu⟩
  · exact ⟨fun e => absurd e h, fun _ => rfl⟩
  · rw [s.keyWaitPoll_frame]
    exact ⟨fun _ => rfl, fun e => absurd h e⟩
  · exact ⟨nofun, fun _ => rfl⟩
  · have hkeeps := exec_keepsOtherColumns he
    rcases hu with ⟨hu, rfl⟩ | ⟨hu, rfl⟩
    · exact ⟨fun _ => hkeeps.keys, fun e => absurd hu e⟩
    · exact ⟨fun e => absurd e hu, fun _ => hkeeps.keyPrev⟩

end Sys2Proof.Machine

namespace Sys2Proof.Machine

/-! ## The step: its fetch, its cases and outcomes, and where it goes next (spec/60_exceptions.md R104, R107,
spec/20_memory.md R33 to R35, spec/40_control_flow.md R61) -/

variable {s t : State} {i : Instr} {k : FaultKind} {r : FaultRecord}

/-! ### Fetch and checked accesses -/

/-- Settles O6: the fetch completes, fails on its second byte, or fails on its first. -/
theorem fetchReadsBigEndianOrFaults : Obligations.FetchReadsBigEndianOrFaults := by
  intro s
  rcases s.fetch_cases with ⟨hpc, hf⟩ | ⟨hpc, hf⟩ <;> rw [hf]
  · exact ⟨fun _ => by rw [wordOfBytes_eq], fun h => by omega, fun h => by omega⟩
  · exact ⟨fun h => by omega, fun h => by rw [h]; rfl, fun h => by rw [Nat.max_eq_left h]⟩

/-- Settles O7: both accesses compare the exact address with 0xFFF, and a write below it is one `Memory.write`. -/
theorem memoryAccessIsCheckedNeverWrapped : Obligations.MemoryAccessIsCheckedNeverWrapped := by
  intro s a b
  refine ⟨fun h => ⟨s.memRead_error h, s.memWrite_error h b⟩,
    fun h => ⟨s.memRead_ok h, _, s.memWrite_ok h b, ?_, ?_, rfl⟩⟩
  · rw [State.memRead_ok _ h, Memory.read_write, if_pos rfl]
  · intro c hc
    exact (s.mem.read_write a c b).trans (if_neg (by omega))

/-- V0 to VX written from an address up read back there in order (R36, R92). -/
theorem State.read_writeBytes_regRange (s : State) (a : Nat) {x r : RegIdx} (h : r.toNat ≤ x.toNat) :
    (s.mem.writeBytes a (s.regRange x)).read (a + r.toNat) = s.reg r := by
  have hlen : r.toNat < (s.regRange x).length := by
    rw [s.length_regRange]
    omega
  rw [Memory.read_writeBytes_inside _ _ _ hlen, s.getElem_regRange]

/-- Settles O8: the store covers pc + 2 and pc + 3, which the fetch after the advance reads. -/
theorem storedBytesAreFetchedNext : Obligations.StoredBytesAreFetchedNext := by
  intro x s hx hi htop
  have hx1 : 1 ≤ x.toNat := Nat.pos_of_ne_zero fun e => hx (BitVec.eq_of_toNat_eq e)
  have hpc : (s.pc + 2).toNat = s.iReg.toNat := by
    rw [BitVec.toNat_add, hi]
    exact Nat.mod_eq_of_lt (by simp; omega)
  have h0 : (s.mem.writeBytes s.iReg.toNat (s.regRange x)).read s.iReg.toNat = s.reg 0 :=
    s.read_writeBytes_regRange _ (r := 0) (Nat.zero_le _)
  have h1 : (s.mem.writeBytes s.iReg.toNat (s.regRange x)).read (s.iReg.toNat + 1) = s.reg 1 :=
    s.read_writeBytes_regRange _ (r := 1) hx1
  refine ⟨_, execStRegs_ok s x htop, ((fetchReadsBigEndianOrFaults _).1 ?_).trans ?_⟩ <;> simp only [hpc]
  · omega
  · rw [h0, h1]

/-! ### Outcomes -/

theorem stepOutcome_of_fault (h : s.fault ≠ none) : stepOutcome s = some .halted := by
  rw [stepOutcome, if_pos (Option.isSome_iff_ne_none.mpr h)]

theorem State.endedAs_of_fault_none (h : t.fault = none) : t.endedAs = .retired := by
  rw [State.endedAs, h]

/-- The poll clears the latch exactly where some key is fresh (R103). -/
theorem State.keyWaitPoll_waitKey (hw : s.waitKey = true) : s.keyWaitPoll.waitKey = s.freshKeys.isEmpty := by
  rcases s.keyWaitPoll_cases with ⟨hk, h⟩ | ⟨k, ks, hk, h⟩ <;> rw [h, hk]
  · exact hw
  · rfl

theorem stepOutcome_of_wait (h : s.fault = none) (hw : s.waitKey = true) :
    stepOutcome s = some (if s.keyWaitPoll.waitKey then .keyPending else .keyResolved) := by
  simp [stepOutcome, h, hw, State.keyWaitPoll_waitKey hw]

/-- Settles O9: the fetch of two bytes in memory answers their word. -/
theorem stepRunsTheDecodedInstruction : Obligations.StepRunsTheDecodedInstruction := by
  rintro s t i h hw hpc rfl he
  rw [step_of_fetch_ok s h hw ((fetchReadsBigEndianOrFaults s).1 hpc), he]
  rfl

/-- Settles O10: the four cases of a step; an instruction that raised nothing has kept the keys it is sampled with. -/
theorem stepDoesExactlyOneThing : Obligations.StepDoesExactlyOneThing := by
  intro s
  refine ⟨fun h => ⟨step_of_fault s h, stepOutcome_of_fault h⟩,
    fun h hw => ⟨step_of_wait s h hw, stepOutcome_of_wait h hw⟩, fun k h hw hf => ?_, fun w h hw hf => ?_⟩
  · have hs := step_of_fetch_error s h hw hf
    exact ⟨hs, stepOutcome_of_running h hw hs⟩
  · obtain ⟨t, he, -⟩ := exec_completesOrRaises (decode w) s
    have hs := step_of_fetch_ok s h hw hf
    rw [he] at hs
    refine ⟨t, he, ?_⟩
    by_cases ht : t.fault = none
    · rw [retire_of_fault_none ht] at hs
      have hout := stepOutcome_of_running h hw hs
      rw [State.endedAs_of_fault_none (t := t.sampleKeys) ht] at hout
      exact .inl ⟨ht, hs.trans (by rw [State.sampleKeys, (exec_keepsOtherColumns he).keys]), hout⟩
    · obtain ⟨r, hr⟩ := Option.ne_none_iff_exists'.mp ht
      rw [retire_of_fault ht] at hs
      have hout := stepOutcome_of_running h hw hs
      rw [State.endedAs_of_fault hr] at hout
      exact .inr ⟨r, hr, hs, hout⟩

/-! ### A faulted core -/

/-- What the host sees of a faulted core after any of its events (R107). -/
def HaltedAs (s : State) (r : FaultRecord) (t : State) : Prop :=
  t.fault = some r ∧ t.pc = s.pc ∧ t.v = s.v ∧ t.mem = s.mem ∧ t.screen = s.screen

theorem HaltedAs.runEvent {u : State} (e : Event) (h : HaltedAs s r t) (he : runEvent e t = .next u) :
    HaltedAs s r u := by
  cases e with
  | step =>
    cases (step_of_fault t (by rw [h.1]; nofun)).symm.trans he
    exact h
  | setKeys k =>
    cases he
    exact h
  | timerPoll elapsed =>
    cases he
    rw [t.timerPoll_frame]
    exact h

/-- Settles O11: a step is Halted, `set_keys` and `timer_poll` write other fields, and so by induction do any events. -/
theorem faultedCoreStaysHalted : Obligations.FaultedCoreStaysHalted := by
  intro s r h
  have hne : s.fault ≠ none := by rw [h]; nofun
  exact ⟨step_of_fault s hne, stepOutcome_of_fault hne, fun es t hes =>
    runEvents_induction (P := HaltedAs s r) (fun e _ _ => HaltedAs.runEvent e) ⟨h, rfl, rfl, rfl, rfl⟩ hes⟩

/-! ### Transfers -/

/-- A kind that transfers control starts no key wait (R56). -/
theorem unit_ne_setWaitLatch (h : (Instr.controlWord i).pc = .target) : (Instr.controlWord i).unit ≠ .setWaitLatch := by
  cases i with
  | ldK => cases h
  | _ => nofun

/-- Settles O35: the transfer retires into a state that neither faults nor waits, whose fetch fails. -/
theorem badTargetFaultsAtTheNextFetch : Obligations.BadTargetFaultsAtTheNextFetch := by
  intro w s t h hw hf hrow hs ht hpc
  have hout := stepOutcome_of_running h hw hs
  rw [State.endedAs_of_fault_none ht] at hout
  refine ⟨hout, _, step_of_fetch_error t ht ?_ ?_, rfl⟩
  · rcases step_next_cases hs with ⟨h', -⟩ | ⟨-, hw', -⟩ | ⟨k, -, -, hf', -⟩ | ⟨w', u, -, -, hf', he, hu⟩
    · exact absurd h h'
    · rw [hw] at hw'
      cases hw'
    · rw [hf] at hf'
      cases hf'
    · cases hf.symm.trans hf'
      have hwait := ((exec_keepsOtherColumns he).wait (unit_ne_setWaitLatch hrow)).1.trans hw
      rcases hu with ⟨-, rfl⟩ | ⟨-, rfl⟩ <;> exact hwait
  · rcases t.fetch_cases with ⟨hin, -⟩ | ⟨-, hfail⟩
    · omega
    · exact hfail

/-- Settles O36: the word at pc decodes to the jump to pc, which leaves the state as it is, and the step
samples the keys. -/
theorem selfJumpRetiresAgain : Obligations.SelfJumpRetiresAgain := by
  rintro s ⟨h, hw, nnn, hf, hpc⟩
  have he : exec (decode (wordNNN 0x1 nnn)) s = .next s := by
    rw [show decode (wordNNN 0x1 nnn) = .jp nnn from decodeOfEncodeIsTheInstruction (.jp nnn) rfl]
    exact congrArg Host.Outcome.next (congrArg (fun w => { s with pc := w }) hpc.symm)
  have hs : step s = .next s.sampleKeys := by rw [step_of_fetch_ok s h hw hf, he, retire_of_fault_none h]
  refine ⟨hs, ⟨h, hw, nnn, hf, hpc⟩, ?_⟩
  rw [stepOutcome_of_running h hw hs, State.endedAs_of_fault_none (t := s.sampleKeys) h]

/-- Settles O60: a listed word decodes to BAD, and the step keeps what `exec` answers of it. -/
theorem badWordRaisesBadInstruction : Obligations.BadWordRaisesBadInstruction := by
  refine ⟨fun w s => ⟨_, rfl, rfl⟩, fun w s h hw hf hbad => ?_⟩
  have hs : step s = .next (s.raise (.badInstruction w)) := by
    rw [step_of_fetch_ok s h hw hf, decode_of_isBadWord hbad]
    exact retire_raise s _
  exact ⟨_, hs, rfl, stepOutcome_of_running h hw hs⟩

/-! ### The key wait -/

/-- The lowest fresh key heads the list of the fresh keys. -/
theorem State.freshKeys_head {k : Fin 16} (hk : s.keys[k] = true) (hp : s.keyPrev[k] = false)
    (hlow : ∀ j : Fin 16, j < k → s.keys[j] = false ∨ s.keyPrev[j] = true) : ∃ ks, s.freshKeys = k :: ks := by
  have hmem := (s.mem_freshKeys k).mpr ⟨hk, hp⟩
  have hsorted := s.freshKeys_pairwise
  cases hfresh : s.freshKeys with
  | nil => simp [hfresh] at hmem
  | cons j js =>
    rw [hfresh] at hmem hsorted
    rcases List.mem_cons.mp hmem with rfl | hlater
    · exact ⟨js, rfl⟩
    · have hj := (s.mem_freshKeys j).mp (by simp [hfresh])
      rcases hlow j ((List.pairwise_cons.mp hsorted).1 k hlater) with h | h <;> simp [h] at hj

theorem State.freshKeys_eq_nil (h : ∀ k : Fin 16, s.keys[k] = false ∨ s.keyPrev[k] = true) : s.freshKeys = [] :=
  List.eq_nil_iff_forall_not_mem.mpr fun k hk => by
    rcases h k with h | h <;> simp [State.mem_freshKeys, h] at hk

/-- Settles O59: the poll takes the head of the fresh keys, which is the lowest, or only samples where there is none. -/
theorem keyWaitPollTakesTheLowestFreshKey : Obligations.KeyWaitPollTakesTheLowestFreshKey := by
  intro s h hw
  refine ⟨fun k hk hp hlow => ?_, fun hnone => ?_⟩
  · obtain ⟨ks, hfresh⟩ := State.freshKeys_head hk hp hlow
    have hpoll : s.keyWaitPoll = { s.sampleKeys.setReg s.waitReg (BitVec.ofNat 8 k.val) with waitKey := false } := by
      rw [State.keyWaitPoll, hfresh]
      rfl
    have hk8 : (BitVec.ofNat 8 k.val).toNat = k.val := Nat.mod_eq_of_lt (by omega)
    refine ⟨_, (step_of_wait s h hw).trans (congrArg _ hpoll), ?_, ?_, fun r hr => State.reg_setReg_ne _ hr _, rfl, rfl⟩
    · rw [stepOutcome_of_wait h hw, hpoll]
      rfl
    · exact (congrArg BitVec.toNat (State.reg_setReg_same ..)).trans hk8
  · have hpoll : s.keyWaitPoll = s.sampleKeys := by
      rw [State.keyWaitPoll, State.freshKeys_eq_nil hnone]
      rfl
    refine ⟨(step_of_wait s h hw).trans (congrArg _ hpoll), ?_⟩
    rw [stepOutcome_of_wait h hw, hpoll, State.sampleKeys_waitKey, hw]
    rfl

end Sys2Proof.Machine

namespace Sys2Proof.Machine

/-! ## Control flow: the call stack and JP (spec/40_control_flow.md) -/

/-- Settles O29: RET is `State.pop` and a jump to the popped word, or the stack's fault. -/
theorem retPopsOrUnderflows : Obligations.RetPopsOrUnderflows := fun s =>
  ⟨fun k hk => ⟨_, execRet_ok s k.isLt hk, rfl, rfl, rfl, fun _ => rfl, fun _ => rfl⟩,
    fun h => ⟨_, execRet_raise s h, rfl⟩⟩

/-- Settles O30: JP answers one jump. -/
theorem jpWritesThePcWithItsAddress : Obligations.JpWritesThePcWithItsAddress := fun nnn s =>
  ⟨_, rfl, addrOperand_toNat nnn, s.onlyPc_jump _⟩

/-- Settles O31: CALL is `State.push` of pc + 2 and a jump, or the stack's fault. -/
theorem callPushesAndJumpsOrOverflows : Obligations.CallPushesAndJumpsOrOverflows := by
  intro nnn s
  refine ⟨fun k hk => ?_, fun h => ⟨_, execCall_raise s nnn h, rfl⟩⟩
  have hsp : s.sp.val < 16 := hk ▸ k.isLt
  refine ⟨_, execCall_ok s nnn hsp, addrOperand_toNat nnn, congrArg (· + 1) hk, ?_, fun j hj => ?_, rfl, fun _ => rfl,
    fun _ => rfl⟩
  · simp [hk]
  · have hne : s.sp.val ≠ j.val := fun e => hj (Fin.ext (e.symm.trans hk))
    simp [hne]

/-- Settles O32: the call leaves its return address on top of the stack, and the return takes it from there. -/
theorem returnGoesBackPastTheCall : Obligations.ReturnGoesBackPastTheCall := by
  intro nnn s t u hsp hcall hret
  injection (execCall_ok s nnn hsp).symm.trans hcall with ht
  cases hret.symm.trans (execRet_ok t hsp (by rw [← ht]))
  subst ht
  refine ⟨by simp, rfl, fun j hj => ?_, rfl⟩
  have hne : s.sp.val ≠ j.val := hj.ne'
  simp [hne]

end Sys2Proof.Machine

namespace Sys2Proof.Machine

/-! ## Registers and ALU: sums, differences and their flags (spec/41_alu.md) -/

theorem aluResult_add_toNat (a b : Byte) : (aluResult .add a b).toNat = (a.toNat + b.toNat) % 256 :=
  BitVec.toNat_add a b

/-- A difference of bytes is the integer difference modulo 256. -/
theorem byte_sub_toNat (a b : Byte) : ((a - b).toNat : Int) = (a.toNat - b.toNat : Int) % 256 := by
  rw [BitVec.toNat_sub]
  omega

/-- Settles O38: 7XNN answers one register write, of the sum. -/
theorem addImmediateWrapsAndWritesNoFlag : Obligations.AddImmediateWrapsAndWritesNoFlag := by
  intro x nn s
  obtain ⟨t, he, hx, hrest⟩ := exec_setReg (i := .addImm x nn) (s := s) rfl
  exact ⟨t, he, by rw [hx, aluResult_add_toNat], hrest⟩

/-- The flag an ALU operation leaves, by its value. -/
theorem flagByte_aluFlag {op : AluOp} {a b f : Byte} {p q : Prop} (hf : f = flagByte (aluFlag op a b))
    (hp : p → aluFlag op a b = true) (hq : q → aluFlag op a b = false) : (p → f = 1) ∧ (q → f = 0) :=
  ⟨fun h => by rw [hf, hp h]; rfl, fun h => by rw [hf, hq h]; rfl⟩

/-- Settles O40: 8XY4 answers `State.aluWithFlag`; the sum as a number, and the carry past 255. -/
theorem addSetsVxAndCarry : Obligations.AddSetsVxAndCarry := by
  intro x y s
  obtain ⟨t, he, hx, hf, hrest⟩ := exec_aluWithFlag (i := .addReg x y) (s := s) rfl
  obtain ⟨hset, hclear⟩ := flagByte_aluFlag hf decide_eq_true fun h => decide_eq_false (Nat.not_lt.mpr h)
  exact ⟨t, he, fun h => by rw [hx h, aluResult_add_toNat], hset, hclear, hrest⟩

/-- Settles O41: 8XY5 answers `State.aluWithFlag`; the difference is an integer's, and VY at most VX borrows nothing. -/
theorem subSetsVxAndNoBorrow : Obligations.SubSetsVxAndNoBorrow := by
  intro x y s
  obtain ⟨t, he, hx, hf, hrest⟩ := exec_aluWithFlag (i := .sub x y) (s := s) rfl
  obtain ⟨hset, hclear⟩ := flagByte_aluFlag hf decide_eq_true fun h => decide_eq_false (Nat.not_le.mpr h)
  exact ⟨t, he, fun h => by rw [hx h]; exact byte_sub_toNat _ _, hclear, hset, hrest⟩

/-- Settles O42: 8XY7 is 8XY5 with the operands exchanged. -/
theorem subnSetsVxAndNoBorrow : Obligations.SubnSetsVxAndNoBorrow := by
  intro x y s
  obtain ⟨t, he, hx, hf, hrest⟩ := exec_aluWithFlag (i := .subn x y) (s := s) rfl
  obtain ⟨hset, hclear⟩ := flagByte_aluFlag hf decide_eq_true fun h => decide_eq_false (Nat.not_le.mpr h)
  exact ⟨t, he, fun h => by rw [hx h]; exact byte_sub_toNat _ _, hclear, hset, hrest⟩

end Sys2Proof.Machine

namespace Sys2Proof.Machine

/-! ## Index register and memory transfers: FX1E, FX29, FX33, FX55, FX65 (spec/42_index_memory.md) -/

/-- Settles O45: FX1E writes the sum, which wraps at 16 bits, and advances. -/
theorem addIndexWrapsAtSixteenBits : Obligations.AddIndexWrapsAtSixteenBits := by
  intro x s
  have hsum : (s.iReg + byteOperand (s.reg x)).toNat = (s.iReg.toNat + (s.reg x).toNat) % 65536 := by
    rw [BitVec.toNat_add, byteOperand_toNat]
  exact ⟨_, rfl, hsum, rfl, rfl, fun _ => rfl, fun _ => rfl⟩

/-- The glyph's number is the low nibble (R90). -/
theorem glyphAddress_toNat (base : Word) (a : Byte) :
    (glyphAddress base a).toNat = (base.toNat + 5 * (a.toNat % 16)) % 65536 := by
  have hnibble : (a &&& 0x0F).toNat = a.toNat % 16 := Nat.and_two_pow_sub_one_eq_mod a.toNat 4
  rw [glyphAddress, BitVec.toNat_add, BitVec.toNat_mul, byteOperand_toNat, hnibble, Nat.add_mod_mod]
  rfl

theorem fx29Word_eq_ofNat (x : RegIdx) : fx29Word x = BitVec.ofNat 16 (0xF029 + 256 * x.toNat) := by
  revert x
  decide

/-- Settles O46: the policy decides between the glyph's address and the fault. -/
theorem spriteAddressFollowsThePolicy : Obligations.SpriteAddressFollowsThePolicy := by
  intro x s
  refine ⟨fun base h => ⟨_, execLdF_ok s x h, glyphAddress_toNat _ _, rfl, rfl, fun _ => rfl, fun _ => rfl⟩,
    fun h => ?_⟩
  rw [← fx29Word_eq_ofNat]
  exact ⟨_, execLdF_raise s x h, rfl⟩

/-- Settles O47: three bytes are written at I, or the first address past memory is the fault. -/
theorem bcdStoresThreeDigits : Obligations.BcdStoresThreeDigits := by
  intro x s
  refine ⟨fun h => ?_, fun h => ⟨_, execLdB_raise s x h, rfl⟩⟩
  have hdigit (k : Nat) (hk : k < 3) := congrArg BitVec.toNat
    (Memory.read_writeBytes_inside s.mem s.iReg.toNat (bcdDigits (s.reg x)) (k := k) hk)
  exact ⟨_, execLdB_ok s x h, (hdigit 0 (by decide)).trans (BitVec.toNat_udiv ..),
    (hdigit 1 (by decide)).trans (BitVec.toNat_umod ..), (hdigit 2 (by decide)).trans (BitVec.toNat_umod ..),
    fun a ha => Memory.read_writeBytes_outside _ _ _ ha, rfl, rfl, fun _ => rfl⟩

/-- I after FX55 and FX65 (R87). -/
theorem State.bumpI_of_memory (s : State) (x : RegIdx) (h : s.cfg.quirks.memory = true) :
    (s.bumpI x).iReg.toNat = (s.iReg.toNat + x.toNat + 1) % 65536 := by
  rw [State.bumpI_iReg, if_pos h, BitVec.toNat_add, BitVec.toNat_ofNat, rangeCount, Nat.add_mod_mod]
  rfl

theorem State.bumpI_of_not_memory (s : State) (x : RegIdx) (h : s.cfg.quirks.memory = false) :
    (s.bumpI x).iReg = s.iReg := by
  rw [State.bumpI_iReg, h, if_neg Bool.false_ne_true]

/-- Settles O48: V0 to VX are written at I, or the first address past memory is the fault. -/
theorem registerDumpStoresV0ToVx : Obligations.RegisterDumpStoresV0ToVx := by
  intro x s
  refine ⟨fun h => ?_, fun h => ⟨_, execStRegs_raise s x h, rfl⟩⟩
  refine ⟨_, execStRegs_ok s x h, fun k hk => s.read_writeBytes_regRange _ hk, fun a ha => ?_, s.bumpI_of_memory x,
    s.bumpI_of_not_memory x, rfl, rfl, fun _ => rfl⟩
  exact Memory.read_writeBytes_outside _ _ _ (by rwa [s.length_regRange])

/-- Settles O49: V0 to VX are loaded from I, or the first address past memory is the fault. -/
theorem registerLoadFillsV0ToVx : Obligations.RegisterLoadFillsV0ToVx := by
  intro x s
  refine ⟨fun h => ?_, fun h => ⟨_, execLdRegs_raise s x h, rfl⟩⟩
  obtain ⟨v, he, hregs⟩ := execLdRegs_ok s x h
  exact ⟨_, he, fun k hk => (hregs k).trans (if_pos hk), fun k hk => (hregs k).trans (if_neg (Nat.not_le.mpr hk)),
    s.bumpI_of_memory x, s.bumpI_of_not_memory x, rfl, rfl, fun _ => rfl⟩

end Sys2Proof.Machine

namespace Sys2Proof.Machine

/-! ## Timers: one poll, and a series of polls (spec/60_exceptions.md R114 to R117) -/

variable {s t : State}

/-- Settles O51: a poll below the period accumulates, any other carries the excess and ticks once. -/
theorem timerPollCarriesForwardAndTicksOnce : Obligations.TimerPollCarriesForwardAndTicksOnce := by
  intro s e
  rcases s.timerPoll_cases e with ⟨hlt, h⟩ | ⟨hle, h⟩
  · exact ⟨fun _ => h, fun hle => by omega⟩
  · rw [h]
    exact ⟨fun hlt => by omega, fun _ => ⟨Nat.sub_add_cancel hle, countDown_toNat _, countDown_toNat _, rfl⟩⟩

/-- One poll in terms of the tick it makes, or does not make (R114, R115). -/
theorem timerPoll_ticks (s : State) (e : Nat) :
    pollTicks s e * s.cfg.timerPeriod + (s.timerPoll e).acc = s.acc + e ∧
    (s.timerPoll e).dt.toNat = s.dt.toNat - pollTicks s e ∧ (s.timerPoll e).st.toNat = s.st.toNat - pollTicks s e ∧
    (s.timerPoll e).cfg = s.cfg := by
  rcases s.timerPoll_cases e with ⟨hlt, h⟩ | ⟨hle, h⟩ <;> rw [h, pollTicks]
  · rw [if_neg (Nat.not_le.mpr hlt)]
    exact ⟨by rw [Nat.zero_mul, Nat.zero_add], rfl, rfl, rfl⟩
  · rw [if_pos hle]
    exact ⟨by rw [Nat.one_mul]; exact Nat.add_sub_cancel' hle, countDown_toNat _, countDown_toNat _, rfl⟩

/-- A poll after a gap of at most a period leaves less than a period to carry (R117). -/
theorem timerPoll_acc_lt {e : Nat} (hacc : s.acc < s.cfg.timerPeriod) (he : e ≤ s.cfg.timerPeriod) :
    (s.timerPoll e).acc < s.cfg.timerPeriod := by
  rcases s.timerPoll_cases e with ⟨hlt, h⟩ | ⟨hle, h⟩ <;> rw [h]
  · exact hlt
  · show s.acc + e - s.cfg.timerPeriod < s.cfg.timerPeriod
    omega

/-- Over a series of polls no time is lost and the timers go down by the ticks. -/
theorem runPolls_conserves (s : State) (es : List Nat) :
    (runPolls s es).1 * s.cfg.timerPeriod + (runPolls s es).2.acc = s.acc + es.sum ∧
    (runPolls s es).2.dt.toNat = s.dt.toNat - (runPolls s es).1 ∧
    (runPolls s es).2.st.toNat = s.st.toNat - (runPolls s es).1 := by
  induction es generalizing s with
  | nil => exact ⟨by rw [runPolls, Nat.zero_mul, Nat.zero_add]; rfl, rfl, rfl⟩
  | cons e es ih =>
    obtain ⟨hacc, hdt, hst, hcfg⟩ := timerPoll_ticks s e
    obtain ⟨ihacc, ihdt, ihst⟩ := ih (s.timerPoll e)
    rw [hcfg] at ihacc
    simp only [runPolls, List.sum_cons, Nat.add_mul]
    exact ⟨by omega, by omega, by omega⟩

/-- With no gap above a period the series carries less than a period throughout. -/
theorem runPolls_acc_lt (s : State) (es : List Nat) (hacc : s.acc < s.cfg.timerPeriod)
    (hes : ∀ e ∈ es, e ≤ s.cfg.timerPeriod) : (runPolls s es).2.acc < s.cfg.timerPeriod := by
  induction es generalizing s with
  | nil => exact hacc
  | cons e es ih =>
    obtain ⟨-, -, -, hcfg⟩ := timerPoll_ticks s e
    obtain ⟨he, hes⟩ := List.forall_mem_cons.mp hes
    rw [← hcfg] at hes ⊢
    exact ih (s.timerPoll e) (hcfg ▸ timerPoll_acc_lt hacc he) hes

/-- Settles O52: the ticks are at most the quotient because no time is lost, and exactly it where less than a period is
carried. -/
theorem timerDriftIsBounded : Obligations.TimerDriftIsBounded := by
  intro s t es ticks hperiod hpolls
  obtain ⟨rfl, rfl⟩ : (runPolls s es).1 = ticks ∧ (runPolls s es).2 = t := by rw [hpolls]; exact ⟨rfl, rfl⟩
  obtain ⟨htime, hdt, hst⟩ := runPolls_conserves s es
  refine ⟨htime, (Nat.le_div_iff_mul_le hperiod).mpr (by omega), hdt, hst, fun hacc hes => ?_⟩
  have hlt := runPolls_acc_lt s es hacc hes
  refine ⟨hlt, ?_⟩
  rw [← htime, Nat.add_comm, Nat.add_mul_div_right _ _ hperiod, Nat.div_eq_of_lt hlt, Nat.zero_add]

end Sys2Proof.Machine

namespace Sys2Proof.Machine

/-! ## Screen, keys and random: DXYN, CXNN, EX9E, EXA1 (spec/44_display_keys_random.md) -/

variable {s t : State} {x y : RegIdx} {n : Nibble}

/-! ### A sprite's pixels -/

/-- The pixels DXYN toggles are the ones its sprite covers (R98). -/
theorem mem_drawnPixels_iff (px : Fin 64) (py : Fin 32) :
    (px, py) ∈ s.drawnPixels x y (s.bytesAtI n.toNat) ↔ SpriteCovers s x y n px py := by
  rw [State.drawnPixels, mem_spritePixels]
  simp only [State.bytesAtI, List.length_map, List.length_range, List.getElem_map, List.getElem_range, exists_prop]
  rfl

/-- The sprite covers a pixel that is set (R98). -/
def Collides (s : State) (x y : RegIdx) (n : Nibble) : Prop :=
  ∃ px py, SpriteCovers s x y n px py ∧ s.screen.pixel px py = true

/-- DXYN with its rows in memory: each covered pixel is toggled, no other is, and VF is the collision. -/
theorem drawSprite_spec (s : State) (x y : RegIdx) (n : Nibble) :
    (∀ px py, SpriteCovers s x y n px py → (s.drawSprite x y n).screen.pixel px py = !s.screen.pixel px py) ∧
    (∀ px py, ¬ SpriteCovers s x y n px py → (s.drawSprite x y n).screen.pixel px py = s.screen.pixel px py) ∧
    ∃ c, (s.drawSprite x y n).reg 0xF = flagByte c ∧ (c = true ↔ Collides s x y n) := by
  have hnodup : (s.drawnPixels x y (s.bytesAtI n.toNat)).Nodup :=
    spritePixels_nodup _ _ _ _ (by rw [s.length_bytesAtI]; omega)
  obtain ⟨hpixel, hcollide⟩ := blit_spec s.screen false _ hnodup
  refine ⟨fun px py h => ?_, fun px py h => ?_, _, State.reg_setReg_same .., ?_⟩
  · exact (hpixel px py).trans (by rw [decide_eq_true ((mem_drawnPixels_iff px py).mpr h), Bool.xor_true])
  · exact (hpixel px py).trans (by rw [decide_eq_false (mt (mem_drawnPixels_iff px py).mp h), Bool.xor_false])
  · simp only [hcollide, Bool.false_or, List.any_eq_true, Prod.exists, mem_drawnPixels_iff]
    rfl

theorem flagByte_eq_one_iff (c : Bool) : flagByte c = 1 ↔ c = true := by
  revert c
  decide

theorem exec_drw (h : n = 0 ∨ s.iReg.toNat + n.toNat - 1 ≤ 0xFFF) :
    exec (.drw x y n) s = .next (s.drawSprite x y n).advance := by
  refine exec_eq_after fun k ⟨_, hn, hout⟩ => ?_
  rcases h with rfl | h
  · cases hn
  · omega

/-- Settles O54: with its rows in memory DXYN is `State.drawSprite`, else the first address past memory is the fault. -/
theorem drawTogglesTheCoveredPixels : Obligations.DrawTogglesTheCoveredPixels := by
  intro x y n s
  refine ⟨fun h => ?_, fun hn hout => ?_⟩
  · obtain ⟨hcovered, hother, c, hflag, hc⟩ := drawSprite_spec s x y n
    refine ⟨_, exec_drw h, hcovered, hother, fun hset => ?_, fun hset => ?_, fun r hr => ?_, rfl, rfl, fun _ => rfl⟩
    · rw [State.reg_advance, hflag, hc.mpr hset]
      rfl
    · rw [State.reg_advance, hflag, Bool.eq_false_iff.mpr (mt hc.mp hset)]
      rfl
    · exact (State.reg_setFlag ..).trans (if_neg hr)
  · have hpos : 0 < n.toNat := Nat.pos_of_ne_zero fun e => hn (BitVec.eq_of_toNat_eq e)
    exact ⟨_, exec_of_mayRaise (i := .drw x y n) ⟨rfl, hpos, hout⟩, rfl⟩

/-- A draw that takes its origin from other registers than VF leaves what its sprite covers as it is. -/
theorem spriteCovers_drawSprite (hx : x ≠ 0xF) (hy : y ≠ 0xF) (px : Fin 64) (py : Fin 32) :
    SpriteCovers (s.drawSprite x y n).advance x y n px py ↔ SpriteCovers s x y n px py := by
  have hx : (s.drawSprite x y n).advance.reg x = s.reg x := (State.reg_setFlag ..).trans (if_neg hx)
  have hy : (s.drawSprite x y n).advance.reg y = s.reg y := (State.reg_setFlag ..).trans (if_neg hy)
  rw [SpriteCovers, hx, hy]
  rfl

/-- Settles O55: the second draw covers the same pixels, so it toggles each of them back, and it collides where one is
set after the first draw, which is where the first draw set it. -/
theorem drawingTwiceRestoresTheScreen : Obligations.DrawingTwiceRestoresTheScreen := by
  intro x y n s t u hx hy h ht hu
  cases (exec_drw h).symm.trans ht
  cases hu.symm.trans (exec_drw (s := (s.drawSprite x y n).advance) h)
  obtain ⟨hcovered, hother, -⟩ := drawSprite_spec s x y n
  obtain ⟨hcovered', hother', c, hflag, hc⟩ := drawSprite_spec (s.drawSprite x y n).advance x y n
  simp only [Collides, spriteCovers_drawSprite hx hy] at hcovered' hother' hc
  refine ⟨Screen.ext_pixel fun px py => ?_, ?_⟩
  · by_cases hp : SpriteCovers s x y n px py
    · exact (hcovered' px py hp).trans ((congrArg not (hcovered px py hp)).trans (Bool.not_not _))
    · exact (hother' px py hp).trans (hother px py hp)
  · rw [State.reg_advance, hflag, flagByte_eq_one_iff, hc]
    refine exists_congr fun px => exists_congr fun py => and_congr_left fun hset => ?_
    rw [State.advance_screen] at hset
    by_cases hp : SpriteCovers s x y n px py
    · rw [hcovered px py hp, Bool.not_eq_true'] at hset
      exact iff_of_true hp hset
    · rw [hother px py hp] at hset
      exact iff_of_false hp (by rw [hset]; nofun)

/-! ### Random and keys -/

/-- Settles O56: CXNN answers one register write, on the state that counts the draw. -/
theorem randomIsTheDrawnByteMasked : Obligations.RandomIsTheDrawnByteMasked := fun _ _ _ =>
  ⟨_, _, rfl, rfl, State.reg_setReg_same .., fun _ hr => State.reg_setReg_ne _ hr _, rfl, rfl, rfl, fun _ => rfl⟩

/-- Settles O57: both kinds skip on the level of the key VX numbers, or raise. -/
theorem keySkipsTestTheLevel : Obligations.KeySkipsTestTheLevel := by
  intro x s
  refine ⟨fun k hk => ?_, fun h => ⟨⟨_, execSkp_raise s h, rfl⟩, ⟨_, execSknp_raise s h, rfl⟩⟩⟩
  have hlt : (s.reg x).toNat < 16 := hk ▸ k.isLt
  have hkey : s.keys[(s.reg x).toNat] = s.keys[k] := by simp [hk]
  refine ⟨exec_skip (execSkp_ok s hlt) (fun h => ?_) fun h => ?_,
    exec_skip (execSknp_ok s hlt) (fun h => ?_) fun h => ?_⟩ <;> rw [hkey, h]
  · rfl
  · rfl

end Sys2Proof.Machine
